-- ==== Sys2Proof/Word.lean ====
section
/-! DEFINITION. The widths the Turtle fixes (spec/00_scope.md R5, spec/10_state.md R10, R13, R16) and the names of its general
registers. Nothing here computes. -/

namespace Sys2Proof

/-- A 16 bit value: a general register, a memory cell of either space, an instruction word (R10, R31, R50). -/
abbrev Word := BitVec 16

/-- An 8 bit value: half a cell, what a character of a `.string` and the null byte after it are (R144). -/
abbrev Byte := BitVec 8

/-- A 10 bit cell address of either space: what pc and sp hold (R13, R16, R30). -/
abbrev Addr := BitVec 10

/-- The 5 bit opcode, bits 15:11 of an instruction word (R52). -/
abbrev Opcode := BitVec 5

/-- The eight general purpose registers under the manual's names (R10); none is hardwired or special (R11). -/
inductive Reg
  | r0 | r1 | r2 | r3 | r4 | r5 | r6 | r7
deriving DecidableEq, Repr

end Sys2Proof
end

