-- ==== Sys2Proof/Syntax.lean ====
section
/-! DEFINITION. The instructions of the Turtle, one constructor per row of spec/opcode_table.json, in the order of the opcode map
(spec/30_encoding.md R61). Operands are what the manual calls them: registers, an 8 bit immediate used as raw bits, signed offsets
(numbers, so that WellFormed says which ones an instruction can hold), 10 bit addresses (R60). -/

namespace Sys2Proof

/-- An instruction; `a` is register A and `b` register B (spec/00_scope.md R9). -/
inductive Instr
  /-- `nop` (R70) -/
  | nop
  /-- `mv ra, rb` (R90) -/
  | mv (a b : Reg)
  /-- `mvh ra, imm8` (R105) -/
  | mvh (a : Reg) (imm : BitVec 8)
  /-- `mvl ra, imm8` (R106) -/
  | mvl (a : Reg) (imm : BitVec 8)
  /-- `ld ra, [sp+off]`, stack offset form (R112) -/
  | ldSp (a : Reg) (off : Int)
  /-- `st ra, [sp+off]`, stack offset form (R113) -/
  | stSp (a : Reg) (off : Int)
  /-- `in ra` (R77) -/
  | inPort (a : Reg)
  /-- `out ra` (R78) -/
  | outPort (a : Reg)
  /-- `cmp ra, rb` (R93) -/
  | cmp (a b : Reg)
  /-- `jmp addr` (R121) -/
  | jmp (addr : Addr)
  /-- `jc addr` (R122) -/
  | jc (addr : Addr)
  /-- `jnc addr` (R123) -/
  | jnc (addr : Addr)
  /-- `jz addr` (R124) -/
  | jz (addr : Addr)
  /-- `jnz addr` (R125) -/
  | jnz (addr : Addr)
  /-- `call addr` (R120) -/
  | call (addr : Addr)
  /-- `ret` (R71) -/
  | ret
  /-- `push ra` (R75) -/
  | push (a : Reg)
  /-- `pop ra` (R76) -/
  | pop (a : Reg)
  /-- `add ra, rb` (R91) -/
  | add (a b : Reg)
  /-- `sub ra, rb` (R92) -/
  | sub (a b : Reg)
  /-- `and ra, rb` (R94) -/
  | and (a b : Reg)
  /-- `or ra, rb` (R95) -/
  | or (a b : Reg)
  /-- `not ra` (R82) -/
  | not (a : Reg)
  /-- `xor ra, rb` (R96) -/
  | xor (a b : Reg)
  /-- `shr ra, rb` (R97) -/
  | shr (a b : Reg)
  /-- `shl ra, rb` (R98) -/
  | shl (a b : Reg)
  /-- `clr ra` (R79) -/
  | clr (a : Reg)
  /-- `lsp addr`, immediate form (R126) -/
  | lspImm (addr : Addr)
  /-- `lsp ra`, register form (R80) -/
  | lspReg (a : Reg)
  /-- `rsp ra` (R81) -/
  | rsp (a : Reg)
  /-- `ld ra, [rb+off]`, register offset form (R110) -/
  | ldReg (a b : Reg) (off : Int)
  /-- `st ra, [rb+off]`, register offset form (R111) -/
  | stReg (a b : Reg) (off : Int)
deriving DecidableEq, Repr

end Sys2Proof
end

