-- ==== Sys2Proof/WellFormed.lean ====
section
/-! DEFINITION. Which instructions and which source literals fit the fields of the instruction word (spec/30_encoding.md R60,
spec/46_assembler.md R138). The types of `Instr` already bound registers, immediates and addresses; the signed offsets are numbers
and are checked here. -/

namespace Sys2Proof

/-- `n` is a value of the 5 bit signed offset field: -16 to +15 (R60, R138). -/
def fitsOff5 (n : Int) : Bool := decide (-16 ≤ n ∧ n ≤ 15)

/-- `n` is a value of the 8 bit signed offset field: -128 to +127 (R60, R138). -/
def fitsOff8 (n : Int) : Bool := decide (-128 ≤ n ∧ n ≤ 127)

/-- `n` is a value of the 8 bit immediate field: 0 to 0xFF (R60, R138). -/
def fitsImm8 (n : Int) : Bool := decide (0 ≤ n ∧ n ≤ 0xFF)

/-- `n` is a value of the 10 bit address field: 0 to 0x3FF (R60, R138). -/
def fitsAddr (n : Int) : Bool := decide (0 ≤ n ∧ n ≤ 0x3FF)

/-- The instruction can be written in one word: its offset, if it has one, fits its field. Every register, immediate and address
is legal (R62). -/
def Instr.wf : Instr → Bool
  | .nop => true
  | .mv _ _ => true
  | .mvh _ _ => true
  | .mvl _ _ => true
  | .ldSp _ off => fitsOff8 off
  | .stSp _ off => fitsOff8 off
  | .inPort _ => true
  | .outPort _ => true
  | .cmp _ _ => true
  | .jmp _ => true
  | .jc _ => true
  | .jnc _ => true
  | .jz _ => true
  | .jnz _ => true
  | .call _ => true
  | .ret => true
  | .push _ => true
  | .pop _ => true
  | .add _ _ => true
  | .sub _ _ => true
  | .and _ _ => true
  | .or _ _ => true
  | .not _ => true
  | .xor _ _ => true
  | .shr _ _ => true
  | .shl _ _ => true
  | .clr _ => true
  | .lspImm _ => true
  | .lspReg _ => true
  | .rsp _ => true
  | .ldReg _ _ off => fitsOff5 off
  | .stReg _ _ off => fitsOff5 off

end Sys2Proof
end

