-- ==== Sys2Proof/Decode.lean ====
section
/-! DEFINITION. Decoding (spec/30_encoding.md R63) and encoding (R53 to R61). The opcode, bits 15:11, alone selects the instruction
(R52); all 32 opcodes are assigned (R61), so every word decodes and there is no word to reject (R62). Bits the figures label
Ignored are not read by the decoder and are 0 in the encoder (R62, D2). Bit 15 is the leftmost cell of a figure (R51, D1,
DESIGN CHOICE, log 9). -/

namespace Sys2Proof

/-- The register a 3 bit field names: value n names rn (spec/10_state.md R10). -/
def Reg.ofBits (b : BitVec 3) : Reg :=
  match b with
  | 0#3 => .r0
  | 1#3 => .r1
  | 2#3 => .r2
  | 3#3 => .r3
  | 4#3 => .r4
  | 5#3 => .r5
  | 6#3 => .r6
  | _ => .r7   -- 7, the one value left

/-- The 3 bit field that names a register (R10). -/
def Reg.toBits : Reg → BitVec 3
  | .r0 => 0
  | .r1 => 1
  | .r2 => 2
  | .r3 => 3
  | .r4 => 4
  | .r5 => 5
  | .r6 => 6
  | .r7 => 7

/-! ## The fields of a word (R52, R60) -/

/-- `op = w[15:11]` (R52). -/
def opField (w : Word) : Opcode := w.extractLsb' 11 5

/-- Register A, `w[10:8]` (R60). -/
def regA (w : Word) : Reg := Reg.ofBits (w.extractLsb' 8 3)

/-- Register B, `w[7:5]` (R60). -/
def regB (w : Word) : Reg := Reg.ofBits (w.extractLsb' 5 3)

/-- `imm8 = w[7:0]`, raw bits (R60). -/
def imm8Field (w : Word) : BitVec 8 := w.extractLsb' 0 8

/-- `sext_5(off5)`, `off5 = w[4:0]` (R60). -/
def off5Field (w : Word) : Int := (w.extractLsb' 0 5).toInt

/-- `sext_8(off8)`, `off8 = w[7:0]` (R60). -/
def off8Field (w : Word) : Int := (w.extractLsb' 0 8).toInt

/-- `addr = w[10:1]` (R60). -/
def addrField (w : Word) : Addr := w.extractLsb' 1 10

/-- The instruction a word is, for every word (R63, the map of R61). -/
def decode (w : Word) : Instr :=
  match opField w with
  | 0b00000#5 => .nop
  | 0b00001#5 => .mv (regA w) (regB w)
  | 0b00010#5 => .mvh (regA w) (imm8Field w)
  | 0b00011#5 => .mvl (regA w) (imm8Field w)
  | 0b00100#5 => .ldSp (regA w) (off8Field w)
  | 0b00101#5 => .stSp (regA w) (off8Field w)
  | 0b00110#5 => .inPort (regA w)
  | 0b00111#5 => .outPort (regA w)
  | 0b01000#5 => .cmp (regA w) (regB w)
  | 0b01001#5 => .jmp (addrField w)
  | 0b01010#5 => .jc (addrField w)
  | 0b01011#5 => .jnc (addrField w)
  | 0b01100#5 => .jz (addrField w)
  | 0b01101#5 => .jnz (addrField w)
  | 0b01110#5 => .call (addrField w)
  | 0b01111#5 => .ret
  | 0b10000#5 => .push (regA w)
  | 0b10001#5 => .pop (regA w)
  | 0b10010#5 => .add (regA w) (regB w)
  | 0b10011#5 => .sub (regA w) (regB w)
  | 0b10100#5 => .and (regA w) (regB w)
  | 0b10101#5 => .or (regA w) (regB w)
  | 0b10110#5 => .not (regA w)
  | 0b10111#5 => .xor (regA w) (regB w)
  | 0b11000#5 => .shr (regA w) (regB w)
  | 0b11001#5 => .shl (regA w) (regB w)
  | 0b11010#5 => .clr (regA w)
  | 0b11011#5 => .lspImm (addrField w)
  | 0b11100#5 => .lspReg (regA w)
  | 0b11101#5 => .rsp (regA w)
  | 0b11110#5 => .ldReg (regA w) (regB w) (off5Field w)
  | _ => .stReg (regA w) (regB w) (off5Field w)   -- 0b11111, the one opcode left

/-- The instruction the decoder reads from the bits `w` of a table row of `nbits` bits; the bits above `nbits` are 0. An
instruction is one 16 bit cell (R50) and a cell has no byte order (spec/20_memory.md R35), so the word is the number itself. -/
def decodeTableWord (nbits w : Nat) : Option Instr :=
  if nbits ≤ 16 then some (decode (BitVec.ofNat 16 (w % 2 ^ nbits))) else none

/-! ## Encoding -/

/-- Format N, `ooooo-----------` (R53). -/
def formatN (op : Opcode) : Word := op ++ 0#11

/-- Format R, `oooooaaa--------` (R54). -/
def formatR (op : Opcode) (a : Reg) : Word := op ++ a.toBits ++ 0#8

/-- Format RR, `oooooaaabbb-----` (R55). -/
def formatRR (op : Opcode) (a b : Reg) : Word := op ++ a.toBits ++ b.toBits ++ 0#5

/-- Format RI, `oooooaaaiiiiiiii` (R56). -/
def formatRI (op : Opcode) (a : Reg) (imm : BitVec 8) : Word := op ++ a.toBits ++ imm

/-- Format MR, `oooooaaabbbooooo`, the offset in two's complement (R57, R60). -/
def formatMR (op : Opcode) (a b : Reg) (off : Int) : Word := op ++ a.toBits ++ b.toBits ++ BitVec.ofInt 5 off

/-- Format MS, `oooooaaaoooooooo`, the offset in two's complement (R58, R60). -/
def formatMS (op : Opcode) (a : Reg) (off : Int) : Word := op ++ a.toBits ++ BitVec.ofInt 8 off

/-- Format A, `oooooiiiiiiiiii-` (R59). -/
def formatA (op : Opcode) (addr : Addr) : Word := op ++ addr ++ 0#1

/-- The canonical word of an instruction: its opcode and fields, ignored bits 0 (R61). The encoding of a well-formed instruction;
of one that is not well-formed, the word whose offset field holds the offset's low bits. -/
def encode : Instr → Word
  | .nop => formatN 0b00000#5
  | .mv a b => formatRR 0b00001#5 a b
  | .mvh a imm => formatRI 0b00010#5 a imm
  | .mvl a imm => formatRI 0b00011#5 a imm
  | .ldSp a off => formatMS 0b00100#5 a off
  | .stSp a off => formatMS 0b00101#5 a off
  | .inPort a => formatR 0b00110#5 a
  | .outPort a => formatR 0b00111#5 a
  | .cmp a b => formatRR 0b01000#5 a b
  | .jmp addr => formatA 0b01001#5 addr
  | .jc addr => formatA 0b01010#5 addr
  | .jnc addr => formatA 0b01011#5 addr
  | .jz addr => formatA 0b01100#5 addr
  | .jnz addr => formatA 0b01101#5 addr
  | .call addr => formatA 0b01110#5 addr
  | .ret => formatN 0b01111#5
  | .push a => formatR 0b10000#5 a
  | .pop a => formatR 0b10001#5 a
  | .add a b => formatRR 0b10010#5 a b
  | .sub a b => formatRR 0b10011#5 a b
  | .and a b => formatRR 0b10100#5 a b
  | .or a b => formatRR 0b10101#5 a b
  | .not a => formatR 0b10110#5 a
  | .xor a b => formatRR 0b10111#5 a b
  | .shr a b => formatRR 0b11000#5 a b
  | .shl a b => formatRR 0b11001#5 a b
  | .clr a => formatR 0b11010#5 a
  | .lspImm addr => formatA 0b11011#5 addr
  | .lspReg a => formatR 0b11100#5 a
  | .rsp a => formatR 0b11101#5 a
  | .ldReg a b off => formatMR 0b11110#5 a b off
  | .stReg a b off => formatMR 0b11111#5 a b off

/-- The bits of a word that are not labelled Ignored in the format of its opcode (R53 to R59, R61). -/
def usedBits (op : Opcode) : Word :=
  match op with
  -- format N
  | 0b00000#5 | 0b01111#5 => 0xF800
  -- format R
  | 0b00110#5 | 0b00111#5 | 0b10000#5 | 0b10001#5 | 0b10110#5 | 0b11010#5 | 0b11100#5 | 0b11101#5 => 0xFF00
  -- format RR
  | 0b00001#5 | 0b01000#5 | 0b10010#5 | 0b10011#5 | 0b10100#5 | 0b10101#5 | 0b10111#5 | 0b11000#5 | 0b11001#5 => 0xFFE0
  -- format A
  | 0b01001#5 | 0b01010#5 | 0b01011#5 | 0b01100#5 | 0b01101#5 | 0b01110#5 | 0b11011#5 => 0xFFFE
  -- formats RI, MS and MR have no ignored bit
  | _ => 0xFFFF

end Sys2Proof
end

