-- ==== Sys2Proof/Machine/Flags.lean ====
section
/-! DEFINITION. Every flag computation of the spec (spec/10_state.md R20), on exact integers. A condition that does not hold gives 0
(R22, D7, DESIGN CHOICE of the spec, log 13). -/

namespace Sys2Proof.Machine

/-- z of a result: 1 when the 16 bit result is 0x0000 (R20). -/
def isZero (v : Word) : Bool := decide (v = 0)

/-- c of `add`: the unsigned sum is 2^16 or more (R91, D8, log 14). -/
def carryOfAdd (x y : Word) : Bool := decide (2 ^ 16 ≤ x.toNat + y.toNat)

/-- c of `sub`: the exact unsigned difference is negative, a borrow (R92, D9, log 14). -/
def borrowOfSub (x y : Word) : Bool := decide ((x.toNat : Int) - (y.toNat : Int) < 0)

/-- c of `cmp`: register B is greater than register A, both two's complement (R93, D27, log 14). -/
def signedLess (x y : Word) : Bool := decide (y.toInt > x.toInt)

/-- z of `cmp`: the two registers are equal (R93). -/
def equalWords (x y : Word) : Bool := decide (x = y)

end Sys2Proof.Machine
end

