-- ==== Sys2Proof/Machine/Operands.lean ====
section
/-! DEFINITION. The values instructions compute from their operands: widening, narrowing, bytes, sums, shifts and effective
addresses (spec/00_scope.md R7, spec/20_memory.md R39, spec/44_load_store.md R114). Arithmetic is exact, then reduced. -/

namespace Sys2Proof.Machine

/-- `v[9:0]`: the bottom 10 bits of a 16 bit value (R80, R110, R71). -/
def low10 (v : Word) : Addr := v.extractLsb' 0 10

/-- `zext_10(a)`: a 10 bit value as a 16 bit one, bits 15:10 zero (R81, R120, D11, D12, log 16). -/
def zext10 (a : Addr) : Word := BitVec.ofNat 16 a.toNat

/-- `(a + 1) mod 2^10` (spec/10_state.md R15, R17, D5, log 11). -/
def nextAddr (a : Addr) : Addr := BitVec.ofNat 10 (a.toNat + 1)

/-- `(a - 1) mod 2^10` (spec/10_state.md R17, R18, D5, log 11). -/
def prevAddr (a : Addr) : Addr := BitVec.ofInt 10 ((a.toNat : Int) - 1)

/-- `(base + offset) mod 2^10`, the offset signed (spec/20_memory.md R39, R114, D5, log 11). -/
def effAddr (base : Addr) (off : Int) : Addr := BitVec.ofInt 10 ((base.toNat : Int) + off)

/-- `{imm8, v[7:0]}`: the high byte replaced (R105). -/
def withHighByte (v : Word) (imm : BitVec 8) : Word := imm ++ v.extractLsb' 0 8

/-- `{v[15:8], imm8}`: the low byte replaced (R106). -/
def withLowByte (v : Word) (imm : BitVec 8) : Word := v.extractLsb' 8 8 ++ imm

/-- The sum mod 2^16 (R91). -/
def addWords (x y : Word) : Word := BitVec.ofNat 16 (x.toNat + y.toNat)

/-- The difference mod 2^16 (R92). -/
def subWords (x y : Word) : Word := BitVec.ofInt 16 ((x.toNat : Int) - (y.toNat : Int))

/-- `x >> n`, logical, by the whole value of `n`; 0 from 16 on (R97, D10, log 15). -/
def shiftRight (x n : Word) : Word :=
  if 16 ≤ n.toNat then 0 else BitVec.ofNat 16 (x.toNat / 2 ^ n.toNat)

/-- `(x << n) mod 2^16` by the whole value of `n`; 0 from 16 on (R98, D10, log 15). -/
def shiftLeft (x n : Word) : Word :=
  if 16 ≤ n.toNat then 0 else BitVec.ofNat 16 (x.toNat * 2 ^ n.toNat)

end Sys2Proof.Machine
end

