-- ==== Sys2Proof/Config.lean ====
section
/-! DEFINITION. What the spec leaves open as named parameters (spec/00_scope.md R6), as constants without a body: no proof and no
evaluation can see their values, so that a claim that speaks of one holds whatever it is. -/

namespace Sys2Proof.Config

/-- `RESET_C`, the carry flag after initialization or reset: any bit (spec/10_state.md R23, D14).
DESIGN CHOICE, log 4: one constant for every run, unsafe only in that. -/
opaque resetC : Bool

/-- `RESET_Z`, the zero flag after initialization or reset: any bit (spec/10_state.md R23, D14).
DESIGN CHOICE, log 4: one constant for every run, unsafe only in that. -/
opaque resetZ : Bool

/-- `INIT_RAM`, what each cell of the data space holds before the first store to it: any value per cell
(spec/20_memory.md R44, D15). DESIGN CHOICE, log 5: one map for every run, unsafe only in that. -/
opaque initRam : Addr → Word

/-- `INPUT`, the value the input port presents to the `in` that is executed after `n` others, where the state's own input script
says nothing: any value for each execution (spec/41_register.md R77, D16). DESIGN CHOICE, log 7. -/
opaque input : Nat → Word

/-- The part of `STRING_PACKING` that says how bytes fill 16 bit cells (spec/46_assembler.md R144, D25): the number of characters
in a cell, the order within a cell and the padding. That these are the only layouts is R144's list "one per cell, or two per cell and
in which order"; which byte of a cell a single character takes is a field, since no rule says it (DESIGN CHOICE, log 24). -/
inductive CellLayout
  /-- each byte in a cell of its own, in its high or its low half; `pad` in the other half -/
  | onePerCell (inHigh : Bool) (pad : Byte)
  /-- two bytes in a cell, the first of them in the high or the low half; `pad` after the last of an odd number -/
  | twoPerCell (firstHigh : Bool) (pad : Byte)
deriving DecidableEq, Repr

/-- `STRING_PACKING`, an argument of the assembler (spec/46_assembler.md R144, D25, log 24). The null byte after the characters is
not part of it: R144 gives it, and the assembler places it. -/
structure StringPacking where
  /-- character code and escapes: from the characters between the quotes, escapes not resolved, to the bytes of the string -/
  bytes : List Char → List Byte
  /-- how the bytes, the null byte after them included, fill cells -/
  layout : CellLayout

end Sys2Proof.Config
end

