-- ==== Sys2Proof/Machine/State.lean ====
section
/-! DEFINITION. The state of the machine as plain data (spec/10_state.md R28), the reasons a step can stop, and the state after
reset (spec/70_reset_and_hazards.md R165). -/

namespace Sys2Proof.Machine

/-- The eight general registers, 16 bits each (spec/10_state.md R10). -/
structure Regs where
  r0 : Word
  r1 : Word
  r2 : Word
  r3 : Word
  r4 : Word
  r5 : Word
  r6 : Word
  r7 : Word
deriving DecidableEq, Repr

/-- The contents of a memory space: cell address and 16 bit value, addresses strictly rising and below 1024
(spec/20_memory.md R31, R34; log 1). An address that is not listed holds no value the model knows: a cell of the data space that
nothing has written, or a cell of the instruction space that the image does not define (R44). -/
abbrev Memory := List (Nat × Word)

/-- Everything the spec gives the machine (R28), and the two fields the model adds for the input port's free values. -/
structure State where
  /-- r0 to r7 (R10) -/
  regs : Regs
  /-- program counter (R13) -/
  pc : Addr
  /-- stack pointer, the next free cell (R16) -/
  sp : Addr
  /-- carry flag (R19) -/
  c : Bool
  /-- zero flag (R19) -/
  z : Bool
  /-- data space, "RAM": the cells written since reset (R26, R30) -/
  dmem : Memory
  /-- instruction space, "ROM": the program image, a partial map (R26, R33) -/
  imem : Memory
  /-- values handed to the output port so far, oldest first (R27) -/
  output : List Word
  /-- the model's own: values the environment has been fixed to present to the next `in`s, in order (log 7) -/
  inputScript : List Word
  /-- the model's own: how many `in` have executed, so that each reads a fresh free value (log 7) -/
  inputCount : Nat
deriving DecidableEq, Repr

/-- The reasons the hardware stops an instruction: none. The Turtle raises no exception and every instruction completes
(spec/60_exceptions.md R150); the type has no constructor, so nobody can raise one. Safe: the spec decides it (D17, log 18). -/
inductive Fault
deriving DecidableEq, Repr

/-- The reasons the model does not run a step. -/
inductive Refusal
  /-- An instruction without a meaning in this model, raised by an arm of `exec` and by nothing else; no arm raises it now.
  Safe: nothing is claimed of such a step. -/
  | notModelled (mnemonic : String)
  /-- The fetch address is not in the program image, raised by `step` before any instruction is decoded: the spec says a model
  refuses that step (spec/20_memory.md R33, D15, U4; log 6). Safe: nothing is claimed of such a step. -/
  | fetchOutsideImage (pc : Addr)
deriving DecidableEq, Repr

/-- Every general register 0x0000 (R28). -/
def Regs.zero : Regs :=
  { r0 := 0, r1 := 0, r2 := 0, r3 := 0, r4 := 0, r5 := 0, r6 := 0, r7 := 0 }

/-- The machine after initialization or CPU reset (spec/70_reset_and_hazards.md R165): pc, sp and the general registers at the
manual's values; the flags at the open `RESET_C` and `RESET_Z` (DESIGN CHOICE, log 4); no cell of the data space written (log 5);
no program image (log 6); no output; the model's own input fields empty and 0 (DESIGN CHOICE, log 7). -/
def State.reset : State :=
  { regs := Regs.zero
    pc := 0x000
    sp := 0x3FF
    c := Config.resetC
    z := Config.resetZ
    dmem := []
    imem := []
    output := []
    inputScript := []
    inputCount := 0 }

end Sys2Proof.Machine
end

