-- ==== Sys2Proof/Machine/Ops.lean ====
section
/-! DEFINITION. The named operations over registers, memory, stack and ports that every meaning is made of (the primitives of
spec/00_scope.md R8). The spec describes no exception and no return from one (spec/60_exceptions.md R150 to R154), so no operation
takes one. -/

namespace Sys2Proof.Machine

/-! ## Memory as a list -/

/-- The value a memory lists for an address, if it lists one. -/
def Memory.read? : Memory → Nat → Option Word
  | [], _ => none
  | (b, w) :: m, a => if a = b then some w else Memory.read? m a

/-- The memory with `v` at address `a`, addresses kept strictly rising. -/
def Memory.write : Memory → Nat → Word → Memory
  | [], a, v => [(a, v)]
  | (b, w) :: m, a, v =>
    if a < b then (a, v) :: (b, w) :: m
    else if a = b then (a, v) :: m
    else (b, w) :: Memory.write m a v

/-- The canonical form from address `lo` on: every address at least `lo`, strictly rising, below 1024 (spec/20_memory.md R34). -/
def Memory.wfFrom : Nat → Memory → Bool
  | _, [] => true
  | lo, (b, _) :: m => decide (lo ≤ b) && decide (b < 1024) && Memory.wfFrom (b + 1) m

/-- The canonical form: strictly rising addresses below 1024. An unlisted address holds no known value, so no entry can equal what
an unlisted one holds (log 1, log 5). -/
def Memory.wf (m : Memory) : Bool := Memory.wfFrom 0 m

/-- Both memories of a state are in canonical form. -/
def State.wf (s : State) : Bool := s.dmem.wf && s.imem.wf

/-! ## General registers (spec/10_state.md R10, R11) -/

/-- The value a register holds. -/
def Regs.get (g : Regs) : Reg → Word
  | .r0 => g.r0
  | .r1 => g.r1
  | .r2 => g.r2
  | .r3 => g.r3
  | .r4 => g.r4
  | .r5 => g.r5
  | .r6 => g.r6
  | .r7 => g.r7

/-- The registers with one of them written. -/
def Regs.set (g : Regs) (r : Reg) (v : Word) : Regs :=
  match r with
  | .r0 => { g with r0 := v }
  | .r1 => { g with r1 := v }
  | .r2 => { g with r2 := v }
  | .r3 => { g with r3 := v }
  | .r4 => { g with r4 := v }
  | .r5 => { g with r5 := v }
  | .r6 => { g with r6 := v }
  | .r7 => { g with r7 := v }

/-- `r[i]`, a read of a general register (R8). -/
def State.reg (s : State) (r : Reg) : Word := s.regs.get r

/-- `r[i] <- v` (R8). -/
def State.setReg (s : State) (r : Reg) (v : Word) : State := { s with regs := s.regs.set r v }

/-! ## pc, sp and the flags -/

/-- `pc <- a` (R8). -/
def State.setPc (s : State) (a : Addr) : State := { s with pc := a }

/-- `pc <- next` (R8, spec/10_state.md R14, R15). -/
def State.advance (s : State) : State := s.setPc (nextAddr s.pc)

/-- `if cond then pc <- addr else pc <- next` (R122 to R125). -/
def State.branch (s : State) (cond : Bool) (addr : Addr) : State :=
  s.setPc (if cond then addr else nextAddr s.pc)

/-- `sp <- a` (R8). -/
def State.setSp (s : State) (a : Addr) : State := { s with sp := a }

/-- `c <- c; z <- z`: a flag writer writes both (spec/10_state.md R20). -/
def State.setFlags (s : State) (c z : Bool) : State := { s with c := c, z := z }

/-! ## The two memory spaces (spec/20_memory.md R30, R32) -/

/-- `MemRead(a, 1)`: the cell of the data space, or its unknown initial value where nothing has written it (R36, R44, log 5). -/
def State.memRead (s : State) (a : Addr) : Word :=
  match s.dmem.read? a.toNat with
  | some v => v
  | none => Config.initRam a

/-- `MemWrite(a, 1, v)` on the data space (R36). -/
def State.memWrite (s : State) (a : Addr) (v : Word) : State := { s with dmem := s.dmem.write a.toNat v }

/-- `Fetch(a)`: the word of the instruction space, if the image defines it (R33). -/
def State.fetchAt (s : State) (a : Addr) : Option Word := s.imem.read? a.toNat

/-- `Fetch(pc)` (R33). -/
def State.fetch (s : State) : Option Word := s.fetchAt s.pc

/-- The machine after reset with a program image in its instruction space: the load of an image from outside before the run
(spec/20_memory.md R44, spec/70_reset_and_hazards.md R165, R174; log 6). -/
def State.load (image : Memory) : State := { State.reset with imem := image }

/-! ## The stack (spec/10_state.md R17) -/

/-- A push: write at sp, then decrement. -/
def State.pushWord (s : State) (v : Word) : State := (s.memWrite s.sp v).setSp (prevAddr s.sp)

/-- The top value, the cell at sp + 1 (spec/00_scope.md R9). -/
def State.topWord (s : State) : Word := s.memRead (nextAddr s.sp)

/-- sp after a pop. -/
def State.dropTop (s : State) : State := s.setSp (nextAddr s.sp)

/-! ## The ports (spec/10_state.md R27, spec/41_register.md R77, R78) -/

/-- `PortIn()`: the value the input port presents now: the script's next value, or a free one where there is no script (log 7). -/
def State.portIn (s : State) : Word :=
  match s.inputScript with
  | [] => Config.input s.inputCount
  | v :: _ => v

/-- The state after one value was taken from the input port. -/
def State.tookInput (s : State) : State :=
  { s with inputScript := s.inputScript.tail, inputCount := s.inputCount + 1 }

/-- `PortOut(v)`: append to the output trace (log 8). -/
def State.portOut (s : State) (v : Word) : State := { s with output := s.output ++ [v] }

/-! ## The ends that meanings share -/

/-- Write a result to register A and go on, flags as they were. -/
def State.finishMove (s : State) (a : Reg) (v : Word) : State := (s.setReg a v).advance

/-- Write a result to register A, c as given, z from the result, and go on (spec/10_state.md R20). -/
def State.finishAlu (s : State) (a : Reg) (v : Word) (c : Bool) : State :=
  ((s.setReg a v).setFlags c (isZero v)).advance

/-- Store a register in the data space and go on (R111, R113). -/
def State.finishStore (s : State) (ea : Addr) (a : Reg) : State := (s.memWrite ea (s.reg a)).advance

end Sys2Proof.Machine
end

