-- ==== Sys2Proof/Machine/Address.lean ====
section
/-! DEFINITION. The meanings of spec/45_address.md: call, jmp, jc, jnc, jz, jnz, lsp (immediate form). A taken transfer replaces the
increment of pc (spec/10_state.md R14, D6, log 12). -/

namespace Sys2Proof.Machine

/-- `call addr` (R120): the pushed cell is pc + 1, zero-extended (D5, D12). -/
def execCall (addr : Addr) (s : State) : Host.Outcome State Fault Refusal :=
  .next ((s.pushWord (zext10 (nextAddr s.pc))).setPc addr)

/-- `jmp addr` (R121). -/
def execJmp (addr : Addr) (s : State) : Host.Outcome State Fault Refusal := .next (s.setPc addr)

/-- `jc addr` (R122). -/
def execJc (addr : Addr) (s : State) : Host.Outcome State Fault Refusal := .next (s.branch s.c addr)

/-- `jnc addr` (R123). -/
def execJnc (addr : Addr) (s : State) : Host.Outcome State Fault Refusal := .next (s.branch (!s.c) addr)

/-- `jz addr` (R124). -/
def execJz (addr : Addr) (s : State) : Host.Outcome State Fault Refusal := .next (s.branch s.z addr)

/-- `jnz addr` (R125). -/
def execJnz (addr : Addr) (s : State) : Host.Outcome State Fault Refusal := .next (s.branch (!s.z) addr)

/-- `lsp addr` (R126): not a control transfer. -/
def execLspImm (addr : Addr) (s : State) : Host.Outcome State Fault Refusal := .next (s.setSp addr).advance

end Sys2Proof.Machine
end

