-- ==== Sys2Proof/Machine/LoadStore.lean ====
section
/-! DEFINITION. The meanings of spec/44_load_store.md: ld and st, register offset and stack offset forms. Neither form changes its
base (R114). -/

namespace Sys2Proof.Machine

/-- The effective address of a register offset form: `(r[b][9:0] + sext_5(off5)) mod 2^10` (R110, R111). -/
def State.regAddr (s : State) (b : Reg) (off : Int) : Addr := effAddr (low10 (s.reg b)) off

/-- The effective address of a stack offset form: `(sp + sext_8(off8)) mod 2^10` (R112, R113). -/
def State.spAddr (s : State) (off : Int) : Addr := effAddr s.sp off

/-- `ld ra, [rb+off]` (R110). -/
def execLdReg (a b : Reg) (off : Int) (s : State) : Host.Outcome State Fault Refusal :=
  .next (s.finishMove a (s.memRead (s.regAddr b off)))

/-- `st ra, [rb+off]` (R111). -/
def execStReg (a b : Reg) (off : Int) (s : State) : Host.Outcome State Fault Refusal :=
  .next (s.finishStore (s.regAddr b off) a)

/-- `ld ra, [sp+off]` (R112). -/
def execLdSp (a : Reg) (off : Int) (s : State) : Host.Outcome State Fault Refusal :=
  .next (s.finishMove a (s.memRead (s.spAddr off)))

/-- `st ra, [sp+off]` (R113). -/
def execStSp (a : Reg) (off : Int) (s : State) : Host.Outcome State Fault Refusal :=
  .next (s.finishStore (s.spAddr off) a)

end Sys2Proof.Machine
end

