-- ==== Sys2Proof/Machine/NoArgument.lean ====
section
/-! DEFINITION. The meanings of spec/40_no_argument.md: nop, ret. -/

namespace Sys2Proof.Machine

/-- `nop` (R70). -/
def execNop (s : State) : Host.Outcome State Fault Refusal := .next s.advance

/-- `ret` (R71): pc takes the low 10 bits of the top value, with no increment on top (D6, D12). -/
def execRet (s : State) : Host.Outcome State Fault Refusal := .next (s.dropTop.setPc (low10 s.topWord))

end Sys2Proof.Machine
end

