-- ==== Sys2Proof/Machine/Register.lean ====
section
/-! DEFINITION. The meanings of spec/41_register.md: push, pop, in, out, clr, lsp (register form), rsp, not. -/

namespace Sys2Proof.Machine

/-- `push ra` (R75). -/
def execPush (a : Reg) (s : State) : Host.Outcome State Fault Refusal := .next (s.pushWord (s.reg a)).advance

/-- `pop ra` (R76). -/
def execPop (a : Reg) (s : State) : Host.Outcome State Fault Refusal := .next (s.dropTop.finishMove a s.topWord)

/-- `in ra` (R77): always completes, with whatever the port presents (D16). -/
def execIn (a : Reg) (s : State) : Host.Outcome State Fault Refusal := .next (s.tookInput.finishMove a s.portIn)

/-- `out ra` (R78). -/
def execOut (a : Reg) (s : State) : Host.Outcome State Fault Refusal := .next (s.portOut (s.reg a)).advance

/-- `clr ra` (R79): no flag is written. -/
def execClr (a : Reg) (s : State) : Host.Outcome State Fault Refusal := .next (s.finishMove a 0)

/-- `lsp ra` (R80). -/
def execLspReg (a : Reg) (s : State) : Host.Outcome State Fault Refusal := .next (s.setSp (low10 (s.reg a))).advance

/-- `rsp ra` (R81): zero-extended (D11). -/
def execRsp (a : Reg) (s : State) : Host.Outcome State Fault Refusal := .next (s.finishMove a (zext10 s.sp))

/-- `not ra` (R82). -/
def execNot (a : Reg) (s : State) : Host.Outcome State Fault Refusal := .next (s.finishAlu a (~~~ s.reg a) false)

end Sys2Proof.Machine
end

