-- ==== Sys2Proof/Machine/RegisterImmediate.lean ====
section
/-! DEFINITION. The meanings of spec/43_register_immediate.md: mvh, mvl. -/

namespace Sys2Proof.Machine

/-- `mvh ra, imm8` (R105). -/
def execMvh (a : Reg) (imm : BitVec 8) (s : State) : Host.Outcome State Fault Refusal :=
  .next (s.finishMove a (withHighByte (s.reg a) imm))

/-- `mvl ra, imm8` (R106). -/
def execMvl (a : Reg) (imm : BitVec 8) (s : State) : Host.Outcome State Fault Refusal :=
  .next (s.finishMove a (withLowByte (s.reg a) imm))

end Sys2Proof.Machine
end

