-- ==== Sys2Proof/Machine/RegisterRegister.lean ====
section
/-! DEFINITION. The meanings of spec/42_register_register.md: mv, add, sub, cmp, and, or, xor, shr, shl. Both registers are read
before register A is written (spec/00_scope.md R8, D13, log 17). -/

namespace Sys2Proof.Machine

/-- `mv ra, rb` (R90). -/
def execMv (a b : Reg) (s : State) : Host.Outcome State Fault Refusal := .next (s.finishMove a (s.reg b))

/-- `add ra, rb` (R91). -/
def execAdd (a b : Reg) (s : State) : Host.Outcome State Fault Refusal :=
  .next (s.finishAlu a (addWords (s.reg a) (s.reg b)) (carryOfAdd (s.reg a) (s.reg b)))

/-- `sub ra, rb` (R92). -/
def execSub (a b : Reg) (s : State) : Host.Outcome State Fault Refusal :=
  .next (s.finishAlu a (subWords (s.reg a) (s.reg b)) (borrowOfSub (s.reg a) (s.reg b)))

/-- `cmp ra, rb` (R93): no register is written. -/
def execCmp (a b : Reg) (s : State) : Host.Outcome State Fault Refusal :=
  .next (s.setFlags (signedLess (s.reg a) (s.reg b)) (equalWords (s.reg a) (s.reg b))).advance

/-- `and ra, rb` (R94). -/
def execAnd (a b : Reg) (s : State) : Host.Outcome State Fault Refusal :=
  .next (s.finishAlu a (s.reg a &&& s.reg b) false)

/-- `or ra, rb` (R95). -/
def execOr (a b : Reg) (s : State) : Host.Outcome State Fault Refusal :=
  .next (s.finishAlu a (s.reg a ||| s.reg b) false)

/-- `xor ra, rb` (R96). -/
def execXor (a b : Reg) (s : State) : Host.Outcome State Fault Refusal :=
  .next (s.finishAlu a (s.reg a ^^^ s.reg b) false)

/-- `shr ra, rb` (R97). -/
def execShr (a b : Reg) (s : State) : Host.Outcome State Fault Refusal :=
  .next (s.finishAlu a (shiftRight (s.reg a) (s.reg b)) false)

/-- `shl ra, rb` (R98). -/
def execShl (a b : Reg) (s : State) : Host.Outcome State Fault Refusal :=
  .next (s.finishAlu a (shiftLeft (s.reg a) (s.reg b)) false)

end Sys2Proof.Machine
end

