-- ==== Sys2Proof/Machine/Dispatch.lean ====
section
/-! DEFINITION. Which meaning each instruction has: one arm per constructor, in the order of the opcode map (spec/30_encoding.md
R61). -/

namespace Sys2Proof.Machine

def exec (i : Instr) (s : State) : Host.Outcome State Fault Refusal :=
  match i with
  | .nop => Sys2Proof.Machine.execNop s
  | .mv a b => Sys2Proof.Machine.execMv a b s
  | .mvh a imm => Sys2Proof.Machine.execMvh a imm s
  | .mvl a imm => Sys2Proof.Machine.execMvl a imm s
  | .ldSp a off => Sys2Proof.Machine.execLdSp a off s
  | .stSp a off => Sys2Proof.Machine.execStSp a off s
  | .inPort a => Sys2Proof.Machine.execIn a s
  | .outPort a => Sys2Proof.Machine.execOut a s
  | .cmp a b => Sys2Proof.Machine.execCmp a b s
  | .jmp addr => Sys2Proof.Machine.execJmp addr s
  | .jc addr => Sys2Proof.Machine.execJc addr s
  | .jnc addr => Sys2Proof.Machine.execJnc addr s
  | .jz addr => Sys2Proof.Machine.execJz addr s
  | .jnz addr => Sys2Proof.Machine.execJnz addr s
  | .call addr => Sys2Proof.Machine.execCall addr s
  | .ret => Sys2Proof.Machine.execRet s
  | .push a => Sys2Proof.Machine.execPush a s
  | .pop a => Sys2Proof.Machine.execPop a s
  | .add a b => Sys2Proof.Machine.execAdd a b s
  | .sub a b => Sys2Proof.Machine.execSub a b s
  | .and a b => Sys2Proof.Machine.execAnd a b s
  | .or a b => Sys2Proof.Machine.execOr a b s
  | .not a => Sys2Proof.Machine.execNot a s
  | .xor a b => Sys2Proof.Machine.execXor a b s
  | .shr a b => Sys2Proof.Machine.execShr a b s
  | .shl a b => Sys2Proof.Machine.execShl a b s
  | .clr a => Sys2Proof.Machine.execClr a s
  | .lspImm addr => Sys2Proof.Machine.execLspImm addr s
  | .lspReg a => Sys2Proof.Machine.execLspReg a s
  | .rsp a => Sys2Proof.Machine.execRsp a s
  | .ldReg a b off => Sys2Proof.Machine.execLdReg a b off s
  | .stReg a b off => Sys2Proof.Machine.execStReg a b off s

end Sys2Proof.Machine
end

