-- ==== Sys2Proof/Machine/Step.lean ====
section
/-! DEFINITION. One step is one whole instruction: fetch at pc, decode, execute (spec/20_memory.md R33,
spec/70_reset_and_hazards.md R172). -/

namespace Sys2Proof.Machine

/-- Fetch, decode and execute one instruction; a fetch from an address that the image does not define is refused (R33, U4). -/
def step (s : State) : Host.Outcome State Fault Refusal :=
  match s.fetch with
  | some w => exec (decode w) s
  | none => .refused (.fetchOutsideImage s.pc)

/-- The state with the instruction whose bits are `w` in the cell of the instruction space that the next step fetches; it stands
for the load of a program image from outside (spec/70_reset_and_hazards.md R174; log 6). -/
def State.withFetchWord (s : State) (nbits w : Nat) : State :=
  { s with imem := s.imem.write s.pc.toNat (BitVec.ofNat 16 (w % 2 ^ nbits)) }

end Sys2Proof.Machine
end

