-- ==== Sys2Proof/Machine/Assembler.lean ====
section
/-! DEFINITION. The assembler: from the statements of a program to the image of the instruction space (spec/46_assembler.md R140 to
R146). It changes nothing the machine does; it says how the manual's programs turn into words. What it cannot place it refuses
(spec/93_implementation_defined.md U11, U12). -/

namespace Sys2Proof.Machine

/-- A tag, the manual's word for a label (R140). -/
abbrev Tag := String

/-- The operand of an address instruction: a number or a tag (R140, R141). -/
inductive Target
  | num (n : Int)
  | tag (t : Tag)
deriving DecidableEq, Repr

/-- The mnemonics whose operand is an address (R141). -/
inductive AddrOp
  | call | jmp | jc | jnc | jz | jnz | lsp
deriving DecidableEq, Repr

/-- An instruction as it is written: with literals and tags not yet checked or resolved (R137 to R141). -/
inductive SrcInstr
  /-- operands are registers and a written offset, if any -/
  | operands (i : Instr)
  /-- `mvh ra, n` -/
  | mvh (a : Reg) (n : Int)
  /-- `mvl ra, n` -/
  | mvl (a : Reg) (n : Int)
  /-- an address instruction -/
  | address (op : AddrOp) (t : Target)
deriving DecidableEq, Repr

/-- A statement: an instruction or one of the four directives (R135). -/
inductive Stmt
  | instr (i : SrcInstr)
  /-- `.org address` (R143) -/
  | org (n : Int)
  /-- `.string tag "text"` (R144) -/
  | string (t : Tag) (text : List Char)
  /-- `.ldtag ra, tag` (R145) -/
  | ldtag (a : Reg) (t : Tag)
  /-- `.resv size` and `.resv tag size` (R146) -/
  | resv (t : Option Tag) (size : Int)
deriving DecidableEq, Repr

/-- A source line that holds a statement, with the tag defined before it, if any (R135). -/
structure Line where
  tag : Option Tag
  stmt : Stmt
deriving DecidableEq, Repr

/-- Why a program is refused. Every case is a refusal of the assembler model, not of the machine; safe: no image results. -/
inductive AsmError
  /-- the line is no statement of R135 to R141 -/
  | syntaxError
  /-- a number does not fit its field (R138, D22) -/
  | numberOutOfRange (n : Int)
  /-- a tag that no line defines (DESIGN CHOICE, log 25) -/
  | undefinedTag (t : Tag)
  /-- a tag that two lines define (DESIGN CHOICE, log 25) -/
  | duplicateTag (t : Tag)
  /-- two statements on one address (R143, D24) -/
  | addressTaken (a : Addr)
  /-- a statement places a word in the gap of a `.resv` (R146; DESIGN CHOICE, log 30) -/
  | gapDefined (a : Addr)
  /-- `.string` while STRING_PACKING is unset (R144, D25) -/
  | stringPackingUnset
deriving DecidableEq, Repr

/-- The instruction of an address mnemonic (R141). -/
def AddrOp.instr : AddrOp → Addr → Instr
  | .call => .call
  | .jmp => .jmp
  | .jc => .jc
  | .jnc => .jnc
  | .jz => .jz
  | .jnz => .jnz
  | .lsp => .lspImm

/-- A number as an address operand (R138). -/
def addrOfNumber (n : Int) : Except AsmError Addr :=
  if fitsAddr n then .ok (BitVec.ofInt 10 n) else .error (.numberOutOfRange n)

/-- The two instructions `.ldtag ra, tag` expands to, with T the tag's address: `mvh ra, T[9:8]`, then `mvl ra, T[7:0]`
(R145, D23, log 23). -/
def ldtagInstrs (a : Reg) (t : Addr) : List Instr :=
  [.mvh a ((t.extractLsb' 8 2).setWidth 8), .mvl a (t.extractLsb' 0 8)]

/-! ## The cells of a string (R144) -/

/-- The cell of two bytes, the first of them in the high half or in the low one. -/
def cellOfBytes (firstHigh : Bool) (x y : Byte) : Word := if firstHigh then x ++ y else y ++ x

/-- Bytes two to a cell, `pad` after the last of an odd number. -/
def packPairs (firstHigh : Bool) (pad : Byte) : List Byte → List Word
  | [] => []
  | [x] => [cellOfBytes firstHigh x pad]
  | x :: y :: bs => cellOfBytes firstHigh x y :: packPairs firstHigh pad bs

/-- The cells that bytes fill under a layout. -/
def packBytes : Config.CellLayout → List Byte → List Word
  | .onePerCell inHigh pad, bs => bs.map fun x => cellOfBytes inHigh x pad
  | .twoPerCell firstHigh pad, bs => packPairs firstHigh pad bs

/-- The cells of a `.string`: "Place the argument string into the ROM, followed by a null byte." (R144). -/
def stringCells (p : Config.StringPacking) (text : List Char) : List Word := packBytes p.layout (p.bytes text ++ [0x00])

/-! ## First pass: locations and tags -/

/-- The location counter advanced by `n` addresses: a 10 bit ROM address (R142), advanced mod 2^10 as all address arithmetic
(spec/00_scope.md R7). -/
def advance (lc : Addr) (n : Nat) : Addr := BitVec.ofNat 10 (lc.toNat + n)

/-- Where the location counter stands after a statement placed at `lc` (R142 to R146). A `.resv` takes any size from 0 on, since no
rule gives its range (DESIGN CHOICE, log 30). -/
def Stmt.after (packing : Option Config.StringPacking) (lc : Addr) : Stmt → Except AsmError Addr
  | .instr _ => .ok (advance lc 1)
  | .org n => addrOfNumber n
  | .string _ text =>
    match packing with
    | none => .error .stringPackingUnset
    | some pack => .ok (advance lc (stringCells pack text).length)
  | .ldtag _ _ => .ok (advance lc 2)
  | .resv _ size => if 0 ≤ size then .ok (advance lc size.toNat) else .error (.numberOutOfRange size)

/-- Each line with the location counter before it. -/
def locate (packing : Option Config.StringPacking) : Addr → List Line → Except AsmError (List (Addr × Line))
  | _, [] => .ok []
  | lc, l :: ls =>
    match l.stmt.after packing lc with
    | .error e => .error e
    | .ok lc' =>
      match locate packing lc' ls with
      | .error e => .error e
      | .ok rest => .ok ((lc, l) :: rest)

/-- The tag a statement itself defines (R144, R146, D24). -/
def Stmt.ownTag : Stmt → Option Tag
  | .string t _ => some t
  | .resv t _ => t
  | _ => none

/-- The tags a line defines: the one before the colon and the directive's own (R140). -/
def Line.tags (l : Line) : List Tag := l.tag.toList ++ l.stmt.ownTag.toList

/-- The names defined so far and their addresses. -/
abbrev TagTable := List (Tag × Addr)

/-- The address of a tag. -/
def TagTable.find (tab : TagTable) (t : Tag) : Except AsmError Addr :=
  match List.lookup t tab with
  | some a => .ok a
  | none => .error (.undefinedTag t)

/-- The table with one tag more. -/
def TagTable.define (tab : TagTable) (t : Tag) (lc : Addr) : Except AsmError TagTable :=
  match List.lookup t tab with
  | some _ => .error (.duplicateTag t)
  | none => .ok ((t, lc) :: tab)

/-- The table with the tags of one line more, all at the line's location. -/
def TagTable.defineAll (lc : Addr) : TagTable → List Tag → Except AsmError TagTable
  | tab, [] => .ok tab
  | tab, t :: ts =>
    match tab.define t lc with
    | .error e => .error e
    | .ok tab' => TagTable.defineAll lc tab' ts

/-- All tags of a located program: each takes the location counter before its line's statement, where the statement is placed (R140).
`.org` and `.resv` place nothing: that a tag before one of them is, all the same, the location before the statement (not the new origin,
and the first address of the gap) is the model's choice (DESIGN CHOICE, log 31). -/
def collectTags : TagTable → List (Addr × Line) → Except AsmError TagTable
  | tab, [] => .ok tab
  | tab, (lc, l) :: ls =>
    match TagTable.defineAll lc tab l.tags with
    | .error e => .error e
    | .ok tab' => collectTags tab' ls

/-! ## Second pass: words -/

/-- The address a target stands for. -/
def Target.resolve (tab : TagTable) : Target → Except AsmError Addr
  | .num n => addrOfNumber n
  | .tag t => tab.find t

/-- The instruction a written instruction stands for, or why it is refused (R138, D22). -/
def SrcInstr.resolve (tab : TagTable) : SrcInstr → Except AsmError Instr
  | .operands i =>
    if i.wf then .ok i
    else
      match i with
      | .ldSp _ off | .stSp _ off | .ldReg _ _ off | .stReg _ _ off => .error (.numberOutOfRange off)
      | _ => .error .syntaxError
  | .mvh a n => if fitsImm8 n then .ok (.mvh a (BitVec.ofInt 8 n)) else .error (.numberOutOfRange n)
  | .mvl a n => if fitsImm8 n then .ok (.mvl a (BitVec.ofInt 8 n)) else .error (.numberOutOfRange n)
  | .address op t =>
    match t.resolve tab with
    | .error e => .error e
    | .ok addr => .ok (op.instr addr)

/-- The words a statement places, in order (R142 to R146); `.org` and `.resv` place none. -/
def Stmt.words (packing : Option Config.StringPacking) (tab : TagTable) : Stmt → Except AsmError (List Word)
  | .instr i =>
    match i.resolve tab with
    | .error e => .error e
    | .ok j => .ok [encode j]
  | .org _ => .ok []
  | .string _ text =>
    match packing with
    | none => .error .stringPackingUnset
    | some pack => .ok (stringCells pack text)
  | .ldtag a t =>
    match tab.find t with
    | .error e => .error e
    | .ok addr => .ok ((ldtagInstrs a addr).map encode)
  | .resv _ _ => .ok []

/-- The image with words placed from a location on, no cell twice (R142, R143, D24). -/
def placeWords : Memory → Addr → List Word → Except AsmError Memory
  | m, _, [] => .ok m
  | m, lc, w :: ws =>
    match m.read? lc.toNat with
    | some _ => .error (.addressTaken lc)
    | none => placeWords (m.write lc.toNat w) (advance lc 1) ws

/-- The image of a located program. -/
def placeAll (packing : Option Config.StringPacking) (tab : TagTable) : Memory → List (Addr × Line) → Except AsmError Memory
  | m, [] => .ok m
  | m, (lc, l) :: ls =>
    match l.stmt.words packing tab with
    | .error e => .error e
    | .ok ws =>
      match placeWords m lc ws with
      | .error e => .error e
      | .ok m' => placeAll packing tab m' ls

/-! ## Gaps (R146) -/

/-- The number of cells a statement reserves. -/
def Stmt.gap : Stmt → Nat
  | .resv _ size => size.toNat
  | _ => 0

/-- Whether an address lies in the gap of `size` cells from `lc` on, mod 2^10 as the location counter. -/
def inGap (lc : Addr) (size : Nat) (a : Addr) : Bool := decide ((a - lc).toNat < size)

/-- The image, if no cell of a gap is defined: "The image does not define the cells of the gap" (R146). A program that places a word
in a gap, before or after the `.resv`, is refused (DESIGN CHOICE, log 30). -/
def checkGaps (image : Memory) : List (Addr × Line) → Except AsmError Memory
  | [] => .ok image
  | (lc, l) :: ls =>
    match image.find? fun e => inGap lc l.stmt.gap (BitVec.ofNat 10 e.1) with
    | some e => .error (.gapDefined (BitVec.ofNat 10 e.1))
    | none => checkGaps image ls

/-- The image of a program: the location counter starts at 0x000 (R142, D24). -/
def assemble (packing : Option Config.StringPacking) (prog : List Line) : Except AsmError Memory :=
  match locate packing 0x000 prog with
  | .error e => .error e
  | .ok located =>
    match collectTags [] located with
    | .error e => .error e
    | .ok tab =>
      match placeAll packing tab [] located with
      | .error e => .error e
      | .ok image => checkGaps image located

end Sys2Proof.Machine
end

