-- ==== Sys2Proof/Machine/SourceText.lean ====
section
/-! DEFINITION. Source text of the assembly language, read off the manual's examples (spec/46_assembler.md R135 to R141): characters
to tokens, tokens to statements, and the assembler of a whole text. What no rule shows is refused (log 25), but for the forms of names
and text that log 29 and log 31 accept. -/

namespace Sys2Proof.Machine

/-- The tokens of a line. -/
inductive Token
  | word (w : String)
  | num (n : Nat)
  | comma
  | colon
  | lbrack
  | rbrack
  | plus
  | minus
  /-- the characters between two double quotes, escapes not resolved (R144) -/
  | text (t : List Char)
deriving DecidableEq, Repr

/-! ## Characters to tokens -/

/-- The characters of mnemonics, directives, registers, tags and numbers: ASCII letters of both cases, digits, `_` and `.`. For the
names of tags this is the model's choice: R140 says that their characters are not stated (DESIGN CHOICE, log 29). -/
def isWordChar (ch : Char) : Bool := ch.isAlphanum || ch == '_' || ch == '.'

/-- The value of a hexadecimal digit (R138). The manual's examples write A to F; a to f are taken for the same digits (DESIGN CHOICE,
log 31). -/
def hexDigit (ch : Char) : Option Nat :=
  if ch.isDigit then some (ch.toNat - 48)
  else if 'a' ≤ ch ∧ ch ≤ 'f' then some (ch.toNat - 87)
  else if 'A' ≤ ch ∧ ch ≤ 'F' then some (ch.toNat - 55)
  else none

/-- The value of digits in a base, read left to right from `acc`. -/
def digitsValue (base : Nat) : Nat → List Char → Option Nat
  | acc, [] => some acc
  | acc, ch :: cs =>
    match hexDigit ch with
    | none => none
    | some d => if d < base then digitsValue base (acc * base + d) cs else none

/-- A number: `0x` and hexadecimal digits, or decimal digits (R138). -/
def numberOf : List Char → Option Nat
  | [] => none
  | '0' :: 'x' :: [] => none
  | '0' :: 'x' :: ds => digitsValue 16 0 ds
  | ds => digitsValue 10 0 ds

/-- A run of word characters as a token, or nothing if the run is empty; a run that begins with a digit is a number. -/
def wordToken (w : List Char) : Option (List Token) :=
  match w with
  | [] => some []
  | ch :: _ =>
    if ch.isDigit then
      match numberOf w with
      | some n => some [.num n]
      | none => none
    else some [.word (String.ofList w)]

/-- The token of a single character; nothing for white space. R135 speaks of leading white space only: that space, tab and carriage
return may also stand between any two tokens of a statement, and that none need stand beside a mark or a quote, as in `[ r1 + 5 ]` and
`done : jmp done`, is the model's choice (DESIGN CHOICE, log 31). -/
def markToken (ch : Char) : Option (List Token) :=
  match ch with
  | ' ' => some []
  | '\t' => some []
  | '\r' => some []
  | ',' => some [.comma]
  | ':' => some [.colon]
  | '[' => some [.lbrack]
  | ']' => some [.rbrack]
  | '+' => some [.plus]
  | '-' => some [.minus]
  | _ => none

/-- Where the reader of a line stands: in a run of word characters, or between double quotes, the characters so far last first. -/
inductive LexMode
  | plain (run : List Char)
  | quoted (text : List Char)
  | escaped (text : List Char)
deriving DecidableEq, Repr

/-- The tokens of a line; a `#` outside quotes starts a comment that runs to the end of the line (R136). R136 does not speak of a `#`
between the quotes of a `.string`: the model takes it as a character of the text (DESIGN CHOICE, log 31). A backslash between quotes
keeps the character after it from ending the text (DESIGN CHOICE, log 24). -/
def tokens : LexMode → List Char → Option (List Token)
  | .plain run, [] => wordToken run.reverse
  | .quoted _, [] => none
  | .escaped _, [] => none
  | .escaped t, ch :: cs => tokens (.quoted (ch :: t)) cs
  | .quoted t, ch :: cs =>
    if ch = Char.ofNat 34 then (tokens (.plain []) cs).map (Token.text t.reverse :: ·)
    else if ch = Char.ofNat 92 then tokens (.escaped (ch :: t)) cs
    else tokens (.quoted (ch :: t)) cs
  | .plain run, ch :: cs =>
    if isWordChar ch then tokens (.plain (ch :: run)) cs
    else
      match wordToken run.reverse with
      | none => none
      | some before =>
        if ch = '#' then some before
        else if ch = Char.ofNat 34 then (tokens (.quoted []) cs).map (before ++ ·)
        else
          match markToken ch with
          | none => none
          | some mark => (tokens (.plain []) cs).map (before ++ mark ++ ·)

/-- The lines of a text. -/
def splitLines : List Char → List Char → List (List Char)
  | line, [] => [line.reverse]
  | line, ch :: cs => if ch = '\n' then line.reverse :: splitLines [] cs else splitLines (ch :: line) cs

/-! ## Tokens to statements -/

/-- A general register's name (R137). -/
def regOf (w : String) : Option Reg :=
  match w with
  | "r0" => some .r0
  | "r1" => some .r1
  | "r2" => some .r2
  | "r3" => some .r3
  | "r4" => some .r4
  | "r5" => some .r5
  | "r6" => some .r6
  | "r7" => some .r7
  | _ => none

/-- A word usable as a tag: no register name, not `sp`, and not begun with a dot as directives are; a word begun with a digit never
comes here, being a number. Names in upper case (`Done`, also `R0`) and mnemonics are tags like any other. R140 leaves the characters
of a tag open: all of this is the model's choice (DESIGN CHOICE, log 29). -/
def tagOf (w : String) : Option Tag :=
  if (regOf w).isSome || w == "sp" || w.toList.head? == some '.' then none else some w

/-- `mnemonic` alone (R141). -/
def noOperand (m : String) : Option Instr :=
  match m with
  | "nop" => some .nop
  | "ret" => some .ret
  | _ => none

/-- `mnemonic ra` (R141). -/
def oneReg (m : String) (a : Reg) : Option Instr :=
  match m with
  | "push" => some (.push a)
  | "pop" => some (.pop a)
  | "in" => some (.inPort a)
  | "out" => some (.outPort a)
  | "clr" => some (.clr a)
  | "lsp" => some (.lspReg a)
  | "rsp" => some (.rsp a)
  | "not" => some (.not a)
  | _ => none

/-- `mnemonic ra, rb` (R141). -/
def twoRegs (m : String) (a b : Reg) : Option Instr :=
  match m with
  | "mv" => some (.mv a b)
  | "add" => some (.add a b)
  | "sub" => some (.sub a b)
  | "cmp" => some (.cmp a b)
  | "and" => some (.and a b)
  | "or" => some (.or a b)
  | "xor" => some (.xor a b)
  | "shr" => some (.shr a b)
  | "shl" => some (.shl a b)
  | _ => none

/-- `mnemonic addr` (R141). -/
def addrOpOf (m : String) : Option AddrOp :=
  match m with
  | "call" => some .call
  | "jmp" => some .jmp
  | "jc" => some .jc
  | "jnc" => some .jnc
  | "jz" => some .jz
  | "jnz" => some .jnz
  | "lsp" => some .lsp
  | _ => none

/-- `mnemonic ra, n` (R141). -/
def regImm (m : String) (a : Reg) (n : Int) : Option SrcInstr :=
  match m with
  | "mvh" => some (.mvh a n)
  | "mvl" => some (.mvl a n)
  | _ => none

/-- `mnemonic ra, [base+off]`: the base `sp` selects the stack offset form, a general register the register offset form (R139). -/
def memOperand (m : String) (a : Reg) (base : String) (off : Int) : Option Instr :=
  match m, base == "sp", regOf base with
  | "ld", true, _ => some (.ldSp a off)
  | "st", true, _ => some (.stSp a off)
  | "ld", false, some b => some (.ldReg a b off)
  | "st", false, some b => some (.stReg a b off)
  | _, _, _ => none

/-- A statement of one word operand: a register, or else a tag as an address (R141: the operand's name tells `lsp ra` from
`lsp addr`). -/
def wordStmt (m x : String) : Option Stmt :=
  match regOf x with
  | some a => (oneReg m a).map (.instr ∘ .operands)
  | none =>
    match addrOpOf m, tagOf x with
    | some op, some t => some (.instr (.address op (.tag t)))
    | _, _ => none

/-- A statement of one number operand (R141, R143, R146). -/
def numStmt (m : String) (n : Int) : Option Stmt :=
  match m with
  | ".org" => some (.org n)
  | ".resv" => some (.resv none n)
  | _ => (addrOpOf m).map fun op => .instr (.address op (.num n))

/-- A statement of a register and a word: two registers, or `.ldtag ra, tag` (R145). -/
def pairStmt (m x y : String) : Option Stmt :=
  match regOf x, regOf y, tagOf y with
  | some a, some b, _ => (twoRegs m a b).map (.instr ∘ .operands)
  | some a, none, some t => if m == ".ldtag" then some (.ldtag a t) else none
  | _, _, _ => none

/-- A load or store statement. -/
def memStmt (m x base : String) (off : Int) : Option Stmt :=
  match regOf x with
  | some a => (memOperand m a base off).map (.instr ∘ .operands)
  | none => none

/-- The statement a line's tokens are (R137 to R146). R138 shows no sign before a number outside brackets: the model reads a minus
sign there as the negative number and leaves it to the range of the number's field, so that `-0` is 0 and every other such number is
refused (DESIGN CHOICE, log 31). -/
def stmtOf : List Token → Option Stmt
  | [.word m] => (noOperand m).map (.instr ∘ .operands)
  | [.word m, .word x] => wordStmt m x
  | [.word m, .num n] => numStmt m n
  | [.word m, .minus, .num n] => numStmt m (-n)
  | [.word m, .word x, .comma, .word y] => pairStmt m x y
  | [.word m, .word x, .comma, .num n] => (regOf x).bind fun a => (regImm m a n).map .instr
  | [.word m, .word x, .comma, .minus, .num n] => (regOf x).bind fun a => (regImm m a (-n)).map .instr
  | [.word m, .word x, .comma, .lbrack, .word b, .rbrack] => memStmt m x b 0
  | [.word m, .word x, .comma, .lbrack, .word b, .plus, .num n, .rbrack] => memStmt m x b n
  | [.word m, .word x, .comma, .lbrack, .word b, .minus, .num n, .rbrack] => memStmt m x b (-n)
  | [.word m, .word t, .text s] => if m == ".string" then (tagOf t).map fun t => .string t s else none
  | [.word m, .word t, .num n] => if m == ".resv" then (tagOf t).map fun t => .resv (some t) n else none
  | _ => none

/-- A line: nothing, or a statement, an instruction or a directive, with an optional tag before it (R135). -/
def lineOf : List Token → Except AsmError (List Line)
  | [] => .ok []
  | .word t :: .colon :: rest =>
    match tagOf t, stmtOf rest with
    | some tag, some s => .ok [⟨some tag, s⟩]
    | _, _ => .error .syntaxError
  | toks =>
    match stmtOf toks with
    | some s => .ok [⟨none, s⟩]
    | none => .error .syntaxError

/-- The statements of source lines. -/
def parseLines : List (List Char) → Except AsmError (List Line)
  | [] => .ok []
  | l :: ls =>
    match tokens (.plain []) l with
    | none => .error .syntaxError
    | some toks =>
      match lineOf toks with
      | .error e => .error e
      | .ok here =>
        match parseLines ls with
        | .error e => .error e
        | .ok rest => .ok (here ++ rest)

/-- The image of a source text (R135 to R146). -/
def assembleText (packing : Option Config.StringPacking) (source : String) : Except AsmError Memory :=
  match parseLines (splitLines [] source.toList) with
  | .error e => .error e
  | .ok prog => assemble packing prog

end Sys2Proof.Machine
end

