-- ==== Sys2Proof/Safety.lean ====
section
/-! DEFINITION. What claims about runs are said in: the end of a run (spec/70_reset_and_hazards.md R169) and the steps that do not
rest on any of the spec's own readings (spec/60_exceptions.md R159, spec/93_implementation_defined.md U1 to U10). Nothing here
changes what a step does. -/

namespace Sys2Proof.Machine

/-- The end of a run: the next instruction is a `jmp` to its own address (R169, D20, log 20). -/
def State.atEnd (s : State) : Bool :=
  match s.fetch with
  | some w => decide (decode w = .jmp s.pc)
  | none => false

/-- The data cell an instruction reads, if it reads one (spec/44_load_store.md R114). -/
def State.cellRead (s : State) : Instr → Option Addr
  | .ldReg _ b off => some (s.regAddr b off)
  | .ldSp _ off => some (s.spAddr off)
  | .pop _ => some (nextAddr s.sp)
  | .ret => some (nextAddr s.sp)
  | _ => none

/-- The data cell an instruction writes, if it writes one (R114). -/
def State.cellWritten (s : State) : Instr → Option Addr
  | .stReg _ b off => some (s.regAddr b off)
  | .stSp _ off => some (s.spAddr off)
  | .push _ => some s.sp
  | .call _ => some s.sp
  | _ => none

/-- U1: the data access, if there is one, is not at an address the image defines, so that one memory and two behave alike. -/
def State.outsideImage (s : State) (i : Instr) : Bool :=
  ((s.cellRead i).all fun a => (s.fetchAt a).isNone) && ((s.cellWritten i).all fun a => (s.fetchAt a).isNone)

/-- U3: the cell read, if there is one, has been written. -/
def State.readsWritten (s : State) (i : Instr) : Bool := (s.cellRead i).all fun a => (s.dmem.read? a.toNat).isSome

/-- U7: a shift amount is below 16. -/
def State.shortShift (s : State) : Instr → Bool
  | .shr _ b => decide ((s.reg b).toNat < 16)
  | .shl _ b => decide ((s.reg b).toNat < 16)
  | _ => true

/-- U8: the operands of a `cmp` have equal sign bits, so that its signed and unsigned readings agree. -/
def State.sameSigns (s : State) : Instr → Bool
  | .cmp a b => decide ((s.reg a).msb = (s.reg b).msb)
  | _ => true

/-- U9: neither pc, sp nor an effective address leaves 0x000 to 0x3FF. -/
def State.staysInRange (s : State) (i : Instr) : Bool :=
  match i with
  | .ldReg _ b off => fitsAddr ((low10 (s.reg b)).toNat + off) && decide (s.pc ≠ 0x3FF)
  | .stReg _ b off => fitsAddr ((low10 (s.reg b)).toNat + off) && decide (s.pc ≠ 0x3FF)
  | .ldSp _ off => fitsAddr (s.sp.toNat + off) && decide (s.pc ≠ 0x3FF)
  | .stSp _ off => fitsAddr (s.sp.toNat + off) && decide (s.pc ≠ 0x3FF)
  | .push _ => decide (s.sp ≠ 0) && decide (s.pc ≠ 0x3FF)
  | .call _ => decide (s.sp ≠ 0) && decide (s.pc ≠ 0x3FF)
  | .pop _ => decide (s.sp ≠ 0x3FF) && decide (s.pc ≠ 0x3FF)
  | .ret => decide (s.sp ≠ 0x3FF)
  | .jmp _ => true
  | .jc _ => s.c || decide (s.pc ≠ 0x3FF)
  | .jnc _ => !s.c || decide (s.pc ≠ 0x3FF)
  | .jz _ => s.z || decide (s.pc ≠ 0x3FF)
  | .jnz _ => !s.z || decide (s.pc ≠ 0x3FF)
  | _ => decide (s.pc ≠ 0x3FF)

/-- U10: the cell a `ret` takes its address from has bits 15:10 zero. -/
def State.cleanReturn (s : State) : Instr → Bool
  | .ret => decide (s.topWord = zext10 (low10 s.topWord))
  | _ => true

/-- The next step rests on none of the readings U1, U3, U4 and U6 to U10: it is the step of every reading of the manual that the
spec records for them. -/
def State.cautious (s : State) : Bool :=
  match s.fetch with
  | none => false
  | some w =>
    let i := decode w
    decide (encode i = w) && s.outsideImage i && s.readsWritten i && s.shortShift i && s.sameSigns i && s.staysInRange i
      && s.cleanReturn i

/-! ## The frame: what two states agree on -/

/-- Every general register outside `but` holds in `t` what it holds in `s`. -/
def State.sameRegs (s t : State) (but : List Reg) : Prop := ∀ r, r ∉ but → t.reg r = s.reg r

/-- Every cell of the data space outside `but` reads in `t` as it reads in `s`. -/
def State.sameCells (s t : State) (but : List Addr) : Prop := ∀ x, x ∉ but → t.memRead x = s.memRead x

/-- Both flags are as they were. -/
def State.sameFlags (s t : State) : Prop := t.c = s.c ∧ t.z = s.z

/-- The output trace, the input script and the count of inputs taken are as they were. -/
def State.samePorts (s t : State) : Prop :=
  t.output = s.output ∧ t.inputScript = s.inputScript ∧ t.inputCount = s.inputCount

/-- The instruction space is as it was. -/
def State.sameImage (s t : State) : Prop := t.imem = s.imem

/-- `t`'s pc is `(pc + 1) mod 2^10` of `s` (spec/10_state.md R14, R15). -/
def State.atNext (s t : State) : Prop := t.pc.toNat = (s.pc.toNat + 1) % 1024

end Sys2Proof.Machine
end

