-- ==== Sys2Proof/Certificates/Slice0/Obligations.lean ====
section
/-! DEFINITION. The statements for the provers, from the numbered rules of spec/. "D<n>" is a row of spec/92_eei_decisions.md, a
reading that the spec marks as its own; "log <n>" is notes/assumptions/<n>.md. Two readings run through all of them in the words of
unmarked rules: `next` is (pc + 1) mod 2^10 and address arithmetic is mod 2^10 (00_scope.md R7, R8; decided in D5, log 11), and the
opcode is bits 15:11 (30_encoding.md R52; decided in D1, log 9). A statement named after one rule states that rule whole: encoding,
effect and frame. -/

open Sys2Proof Sys2Proof.Machine

/-! ## The seven layouts, as statements about words -/

namespace Sys2Proof.Layout

/-- Format N: every word with this opcode is the instruction, and its canonical word is `op << 11`. -/
def isN (op : Opcode) (i : Instr) : Prop :=
  (∀ x : BitVec 11, decode (op ++ x) = i) ∧ (encode i).toNat = op.toNat * 2048

/-- Format R: register A in bits 10:8, bits 7:0 of any value; canonical word `op << 11 | a << 8`. -/
def isR (op : Opcode) (mk : Reg → Instr) : Prop :=
  (∀ (a : Reg) (x : BitVec 8), decode (op ++ a.toBits ++ x) = mk a)
    ∧ ∀ a, (encode (mk a)).toNat = op.toNat * 2048 + a.toBits.toNat * 256

/-- Format RR: register A in bits 10:8, register B in bits 7:5, bits 4:0 of any value; canonical word
`op << 11 | a << 8 | b << 5`. -/
def isRR (op : Opcode) (mk : Reg → Reg → Instr) : Prop :=
  (∀ (a b : Reg) (x : BitVec 5), decode (op ++ a.toBits ++ b.toBits ++ x) = mk a b)
    ∧ ∀ a b, (encode (mk a b)).toNat = op.toNat * 2048 + a.toBits.toNat * 256 + b.toBits.toNat * 32

/-- Format RI: register A in bits 10:8, the immediate's raw bits in bits 7:0. -/
def isRI (op : Opcode) (mk : Reg → BitVec 8 → Instr) : Prop :=
  (∀ (a : Reg) (imm : BitVec 8), decode (op ++ a.toBits ++ imm) = mk a imm)
    ∧ ∀ a imm, (encode (mk a imm)).toNat = op.toNat * 2048 + a.toBits.toNat * 256 + imm.toNat

/-- Format MR: register A in bits 10:8, register B in bits 7:5, the offset in two's complement in bits 4:0. -/
def isMR (op : Opcode) (mk : Reg → Reg → Int → Instr) : Prop :=
  (∀ (a b : Reg) (off : BitVec 5), decode (op ++ a.toBits ++ b.toBits ++ off) = mk a b off.toInt)
    ∧ ∀ (a b : Reg) (off : BitVec 5), (encode (mk a b off.toInt)).toNat
        = op.toNat * 2048 + a.toBits.toNat * 256 + b.toBits.toNat * 32 + off.toNat

/-- Format MS: register A in bits 10:8, the offset in two's complement in bits 7:0. -/
def isMS (op : Opcode) (mk : Reg → Int → Instr) : Prop :=
  (∀ (a : Reg) (off : BitVec 8), decode (op ++ a.toBits ++ off) = mk a off.toInt)
    ∧ ∀ (a : Reg) (off : BitVec 8), (encode (mk a off.toInt)).toNat = op.toNat * 2048 + a.toBits.toNat * 256 + off.toNat

/-- Format A: the address in bits 10:1, bit 0 of any value; canonical word `op << 11 | addr << 1`. -/
def isA (op : Opcode) (mk : Addr → Instr) : Prop :=
  (∀ (addr : Addr) (x : BitVec 1), decode (op ++ addr ++ x) = mk addr)
    ∧ ∀ addr, (encode (mk addr)).toNat = op.toNat * 2048 + addr.toNat * 2

end Sys2Proof.Layout

open Sys2Proof.Layout

/-! ## Decoding and encoding -/

/-- Decoding the canonical word of a well-formed instruction gives the instruction back, for every instruction and every operand
that its field admits (30_encoding.md sections 3, 4 and 6). -/
def Obligations.EncodedInstructionDecodesBack : Prop := ∀ i : Instr, i.wf = true → decode (encode i) = i

/-- Encoding what a word decodes to gives the word with its ignored bits cleared and every other bit kept, for all 65536 words
(30_encoding.md sections 2 and 5, D2). -/
def Obligations.DecodedWordReencodesWithoutIgnoredBits : Prop :=
  ∀ w : Word, encode (decode w) = w &&& usedBits (opField w)

/-- Every word decodes to an instruction that can be encoded: there is no illegal encoding (30_encoding.md section 5, D2). -/
def Obligations.EveryWordDecodesToWellFormed : Prop := ∀ w : Word, (decode w).wf = true

/-- Eight words of spec/95_test_vectors.md section 2, at least one of each layout, are the instructions listed there. Three of them,
0x07FF, 0x903F and 0x4803, have ignored bits set, which have no effect by D2, log 10. -/
def Obligations.SampleWordsDecode : Prop :=
  decode 0x07FF = .nop ∧ decode 0x3D00 = .outPort .r5 ∧ decode 0x903F = .add .r0 .r1 ∧ decode 0x1FFF = .mvl .r7 0xFF
    ∧ decode 0xF03B = .ldReg .r0 .r1 (-5) ∧ decode 0x20EC = .ldSp .r0 (-20) ∧ decode 0x4803 = .jmp 0x001
    ∧ decode 0xFFFF = .stReg .r7 .r7 (-1)

/-- There are eight general registers of 16 bits, and a register field of value n names rn (10_state.md R10): the eight fields name
the eight registers in order, and each register holds any 16 bit value written to it while the others hold what they held. -/
def Obligations.RegisterFieldsNameEightRegisters : Prop :=
  ([0, 1, 2, 3, 4, 5, 6, 7].map fun n => Reg.ofBits (BitVec.ofNat 3 n)) = [.r0, .r1, .r2, .r3, .r4, .r5, .r6, .r7]
    ∧ (∀ r, Reg.ofBits r.toBits = r)
    ∧ ∀ (s : State) (r : Reg) (v : Word), (s.setReg r v).reg r = v ∧ s.sameRegs (s.setReg r v) [r]

/-! ## Reset -/

/-- The state a run starts in, with any program image loaded: pc, sp and r0 to r7 at the manual's values, c and z at RESET_C and
RESET_Z, every data cell at INIT_RAM, the instruction space equal to the image, no output (70_reset_and_hazards.md section 1). The
clauses on c, z and the data cells name the spec's open parameters, which the model holds as constants without a value (D14, D15,
log 4, log 5). -/
def Obligations.ResetStateHoldsGivenValues : Prop :=
  ∀ image : Memory,
    let s := State.load image
    s.pc = 0x000 ∧ s.sp = 0x3FF ∧ (∀ r, s.reg r = 0x0000) ∧ s.c = Config.resetC ∧ s.z = Config.resetZ
      ∧ (∀ x, s.memRead x = Config.initRam x) ∧ (∀ x, s.fetchAt x = image.read? x.toNat) ∧ s.output = []
      ∧ State.load [] = State.reset

/-- The reset state is in canonical form, and so is the state a run of a canonical image starts in (the model's form of memory,
log 1). -/
def Obligations.ResetMemoriesAreCanonical : Prop :=
  State.reset.wf = true ∧ ∀ image : Memory, image.wf = true → (State.load image).wf = true

/-! ## The step -/

/-- When the cell of the instruction space at pc holds a word, the step is exec of the instruction the word decodes to, on the same
state (20_memory.md section 1). -/
def Obligations.StepRunsTheDecodedInstruction : Prop :=
  ∀ (s : State) (w : Word), s.fetchAt s.pc = some w → step s = exec (decode w) s

/-- When the image does not define the cell at pc, the step is refused under a name of its own, and nothing else is ever refused
(20_memory.md section 1, D15, log 6). That nothing else is refused rests on D17, log 18, by which every instruction completes, and on
the model's choices to run where the spec allows a refusal: a data access at an image address (U1, D3, log 2), a flag or a cell that
nothing has written (R159, D14, D15, log 4, log 5), and the readings of U6 to U10 (log 10, log 11, log 14, log 15, log 16). -/
def Obligations.OnlyAFetchOutsideTheImageIsRefused : Prop :=
  (∀ s : State, s.fetchAt s.pc = none → step s = .refused (.fetchOutsideImage s.pc))
    ∧ ∀ (s : State) (r : Refusal), step s = .refused r → s.fetchAt s.pc = none ∧ r = .fetchOutsideImage s.pc

/-- Every instruction completes: from every state whose fetch address the image defines, the step has a next state
(60_exceptions.md section 1, D17, log 18). That the model runs where the spec allows a refusal is its choice (R159, log 2, log 4,
log 5; U6 to U10, log 10, log 11, log 14, log 15, log 16). -/
def Obligations.EveryDefinedFetchCompletes : Prop :=
  ∀ s : State, (s.fetchAt s.pc).isSome = true → ∃ t, step s = .next t

/-- Every step keeps both memories in canonical form: addresses strictly rising and below 1024 (20_memory.md section 1; the form is
the model's, log 1). -/
def Obligations.EveryStepKeepsMemoriesCanonical : Prop :=
  ∀ s t : State, s.wf = true → step s = .next t → t.wf = true

/-- The data space is changed by st, push and call, each in the one cell whose address the instruction forms, and by nothing else;
no instruction changes the instruction space (10_state.md R26). -/
def Obligations.OnlyStPushAndCallChangeTheDataSpace : Prop :=
  ∀ (i : Instr) (s t : State), exec i s = .next t →
    (∀ x, s.cellWritten i ≠ some x → t.memRead x = s.memRead x) ∧ s.sameImage t
      ∧ (match i with
         | .stReg a b off => s.cellWritten i = some (s.regAddr b off) ∧ t.memRead (s.regAddr b off) = s.reg a
         | .stSp a off => s.cellWritten i = some (s.spAddr off) ∧ t.memRead (s.spAddr off) = s.reg a
         | .push a => s.cellWritten i = some s.sp ∧ t.memRead s.sp = s.reg a
         | .call _ => s.cellWritten i = some s.sp
         | _ => s.cellWritten i = none)

/-- The flags after every instruction: the nine flag writers write both as the table says, every other instruction leaves both
unchanged (10_state.md section 4; that a flag whose condition does not hold becomes 0 is D7, log 13; the conditions of c after add, sub
and cmp are D8, D9 and D27, log 14). -/
def Obligations.FlagsAfterEveryInstruction : Prop :=
  ∀ (i : Instr) (s t : State), exec i s = .next t →
    match i with
    | .add a b => (t.z = true ↔ t.reg a = 0) ∧ (t.c = true ↔ 2 ^ 16 ≤ (s.reg a).toNat + (s.reg b).toNat)
    | .sub a b => (t.z = true ↔ t.reg a = 0) ∧ (t.c = true ↔ (s.reg a).toNat < (s.reg b).toNat)
    | .cmp a b => (t.z = true ↔ s.reg a = s.reg b) ∧ (t.c = true ↔ (s.reg b).toInt > (s.reg a).toInt)
    | .and a _ => (t.z = true ↔ t.reg a = 0) ∧ t.c = false
    | .or a _ => (t.z = true ↔ t.reg a = 0) ∧ t.c = false
    | .xor a _ => (t.z = true ↔ t.reg a = 0) ∧ t.c = false
    | .not a => (t.z = true ↔ t.reg a = 0) ∧ t.c = false
    | .shr a _ => (t.z = true ↔ t.reg a = 0) ∧ t.c = false
    | .shl a _ => (t.z = true ↔ t.reg a = 0) ∧ t.c = false
    | _ => s.sameFlags t

/-- jc and jnc read c, jz and jnz read z, and nothing else reads a flag: with other values in the flags that an instruction does not
read, it does the same to everything else, a flag writer gives both flags the very same new values, and every other instruction
leaves those other values where they stand (10_state.md section 4; that the nine writers assign both flags and the others neither is
D7, log 13). Where a conditional jump goes is 45_address.md, the sections of jc, jnc, jz and jnz; that the address replaces the
increment is D6, log 12, and that the increment wraps is D5, log 11. -/
def Obligations.OnlyConditionalJumpsReadFlags : Prop :=
  ∀ (i : Instr) (s t : State) (c z : Bool), exec i s = .next t →
    match i with
    | .jc addr => exec i (s.setFlags s.c z) = .next (t.setFlags s.c z) ∧ (s.c = true → t.pc = addr) ∧ (s.c = false → s.atNext t)
    | .jnc addr => exec i (s.setFlags s.c z) = .next (t.setFlags s.c z) ∧ (s.c = false → t.pc = addr) ∧ (s.c = true → s.atNext t)
    | .jz addr => exec i (s.setFlags c s.z) = .next (t.setFlags c s.z) ∧ (s.z = true → t.pc = addr) ∧ (s.z = false → s.atNext t)
    | .jnz addr => exec i (s.setFlags c s.z) = .next (t.setFlags c s.z) ∧ (s.z = false → t.pc = addr) ∧ (s.z = true → s.atNext t)
    | .add _ _ => exec i (s.setFlags c z) = .next t
    | .sub _ _ => exec i (s.setFlags c z) = .next t
    | .cmp _ _ => exec i (s.setFlags c z) = .next t
    | .and _ _ => exec i (s.setFlags c z) = .next t
    | .or _ _ => exec i (s.setFlags c z) = .next t
    | .xor _ _ => exec i (s.setFlags c z) = .next t
    | .not _ => exec i (s.setFlags c z) = .next t
    | .shr _ _ => exec i (s.setFlags c z) = .next t
    | .shl _ _ => exec i (s.setFlags c z) = .next t
    | _ => exec i (s.setFlags c z) = .next (t.setFlags c z)

/-- pc after every instruction: the increment, but for the instructions that set pc, whose value replaces the increment
(10_state.md section 2; that it replaces it is D6, log 12; that the increment wraps is D5, log 11). After ret it is the bottom 10
bits of the cell above sp (40_no_argument.md, the section of ret; that the cell's other bits are ignored is D12, log 16). -/
def Obligations.ProgramCounterAfterEveryInstruction : Prop :=
  ∀ (i : Instr) (s t : State), exec i s = .next t →
    match i with
    | .jmp addr => t.pc = addr
    | .call addr => t.pc = addr
    | .ret => t.pc.toNat = (s.memRead (nextAddr s.sp)).toNat % 1024
    | .jc addr => if s.c = true then t.pc = addr else s.atNext t
    | .jnc addr => if s.c = false then t.pc = addr else s.atNext t
    | .jz addr => if s.z = true then t.pc = addr else s.atNext t
    | .jnz addr => if s.z = false then t.pc = addr else s.atNext t
    | _ => s.atNext t

/-- sp after every instruction: one less after a push or call, one more after a pop or ret, the loaded value after lsp, unchanged
after every other (10_state.md section 3; the wrap is D5, log 11). -/
def Obligations.StackPointerAfterEveryInstruction : Prop :=
  ∀ (i : Instr) (s t : State), exec i s = .next t →
    match i with
    | .push _ => t.sp = s.sp - 1
    | .call _ => t.sp = s.sp - 1
    | .pop _ => t.sp = s.sp + 1
    | .ret => t.sp = s.sp + 1
    | .lspReg a => t.sp.toNat = (s.reg a).toNat % 1024
    | .lspImm addr => t.sp = addr
    | _ => t.sp = s.sp

/-- A general register is written only by an instruction that names it as register A and writes it; mvh and mvl keep one byte
(10_state.md section 1). -/
def Obligations.OnlyRegisterAIsWritten : Prop :=
  ∀ (i : Instr) (s t : State), exec i s = .next t →
    match i with
    | .mv a _ => s.sameRegs t [a]
    | .clr a => s.sameRegs t [a]
    | .pop a => s.sameRegs t [a]
    | .inPort a => s.sameRegs t [a]
    | .rsp a => s.sameRegs t [a]
    | .ldReg a _ _ => s.sameRegs t [a]
    | .ldSp a _ => s.sameRegs t [a]
    | .mvh a _ => s.sameRegs t [a] ∧ (t.reg a).toNat % 256 = (s.reg a).toNat % 256
    | .mvl a _ => s.sameRegs t [a] ∧ (t.reg a).toNat / 256 = (s.reg a).toNat / 256
    | .add a _ => s.sameRegs t [a]
    | .sub a _ => s.sameRegs t [a]
    | .and a _ => s.sameRegs t [a]
    | .or a _ => s.sameRegs t [a]
    | .xor a _ => s.sameRegs t [a]
    | .not a => s.sameRegs t [a]
    | .shr a _ => s.sameRegs t [a]
    | .shl a _ => s.sameRegs t [a]
    | _ => s.sameRegs t []

/-- The output trace grows by the register's value at an out and is unchanged by every other instruction; only in takes a value
from the input port, and then exactly one (10_state.md section 7, D16, log 7, log 8). -/
def Obligations.PortsAfterEveryInstruction : Prop :=
  ∀ (i : Instr) (s t : State), exec i s = .next t →
    match i with
    | .outPort a => t.output = s.output ++ [s.reg a] ∧ t.inputScript = s.inputScript ∧ t.inputCount = s.inputCount
    | .inPort _ => t.output = s.output ∧ t.inputScript = s.inputScript.tail ∧ t.inputCount = s.inputCount + 1
    | _ => s.samePorts t

/-- No instruction sees the program image: with another image, every instruction does the same and leaves that image
(20_memory.md section 1, MEM_ORG = Harvard, D3, log 2). -/
def Obligations.NoInstructionReadsTheImage : Prop :=
  ∀ (i : Instr) (s t : State) (image : Memory), exec i s = .next t →
    exec i { s with imem := image } = .next { t with imem := image }

/-- At the end of a run, a jmp to its own address, the step changes nothing at all (70_reset_and_hazards.md section 3, D20,
log 20). -/
def Obligations.EndOfRunChangesNothing : Prop := ∀ s : State, s.atEnd = true → step s = .next s

/-! ## No-argument operations (40_no_argument.md) -/

/-- nop: pc only (R70). -/
def Obligations.NopAdvancesOnly : Prop :=
  isN 0b00000 .nop ∧ ∀ s : State, ∃ t, exec .nop s = .next t ∧ s.atNext t
    ∧ s.sameRegs t [] ∧ s.sameFlags t ∧ t.sp = s.sp ∧ s.sameCells t [] ∧ s.sameImage t ∧ s.samePorts t

/-- ret: pc from the low 10 bits of the top value, sp incremented, nothing else (section ret; D6, D12 are the spec's own,
log 12, log 16). -/
def Obligations.RetLoadsPcFromTopOfStack : Prop :=
  isN 0b01111 .ret ∧ ∀ s : State, ∃ t, exec .ret s = .next t
    ∧ t.pc.toNat = (s.memRead (s.sp + 1)).toNat % 1024 ∧ t.sp = s.sp + 1
    ∧ s.sameRegs t [] ∧ s.sameFlags t ∧ s.sameCells t [] ∧ s.sameImage t ∧ s.samePorts t

/-! ## Register operations (41_register.md) -/

/-- push: the register's value at the old sp, sp decremented (R75). -/
def Obligations.PushStoresAtSpThenDecrements : Prop :=
  isR 0b10000 .push ∧ ∀ (a : Reg) (s : State), ∃ t, exec (.push a) s = .next t
    ∧ t.memRead s.sp = s.reg a ∧ t.sp = s.sp - 1 ∧ s.atNext t
    ∧ s.sameCells t [s.sp] ∧ s.sameRegs t [] ∧ s.sameFlags t ∧ s.sameImage t ∧ s.samePorts t

/-- pop: the cell at sp + 1 into the register, sp incremented; the cell keeps its value (R76). -/
def Obligations.PopLoadsTopThenIncrements : Prop :=
  isR 0b10001 .pop ∧ ∀ (a : Reg) (s : State), ∃ t, exec (.pop a) s = .next t
    ∧ t.reg a = s.memRead (s.sp + 1) ∧ t.sp = s.sp + 1 ∧ s.atNext t
    ∧ s.sameRegs t [a] ∧ s.sameFlags t ∧ s.sameCells t [] ∧ s.sameImage t ∧ s.samePorts t

/-- in: the register takes the value the port presents, which is the input script's next value where there is one and otherwise a
free value, another for each in (section in; that in always completes and that the values are free is D16, log 7). -/
def Obligations.InTakesThePresentedValue : Prop :=
  isR 0b00110 .inPort ∧ ∀ (a : Reg) (s : State), ∃ t, exec (.inPort a) s = .next t
    ∧ (match s.inputScript with
       | v :: rest => t.reg a = v ∧ t.inputScript = rest
       | [] => t.reg a = Config.input s.inputCount ∧ t.inputScript = [])
    ∧ t.inputCount = s.inputCount + 1 ∧ s.atNext t ∧ t.output = s.output
    ∧ s.sameRegs t [a] ∧ s.sameFlags t ∧ t.sp = s.sp ∧ s.sameCells t [] ∧ s.sameImage t

/-- out: the whole register is appended to the output trace (section out; that out always completes is D16, log 8). -/
def Obligations.OutAppendsTheRegister : Prop :=
  isR 0b00111 .outPort ∧ ∀ (a : Reg) (s : State), ∃ t, exec (.outPort a) s = .next t
    ∧ t.output = s.output ++ [s.reg a] ∧ t.inputScript = s.inputScript ∧ t.inputCount = s.inputCount ∧ s.atNext t
    ∧ s.sameRegs t [] ∧ s.sameFlags t ∧ t.sp = s.sp ∧ s.sameCells t [] ∧ s.sameImage t

/-- clr: the register becomes 0x0000 and no flag is written (R79). -/
def Obligations.ClrZeroesWithoutFlags : Prop :=
  isR 0b11010 .clr ∧ ∀ (a : Reg) (s : State), ∃ t, exec (.clr a) s = .next t
    ∧ t.reg a = 0x0000 ∧ s.atNext t
    ∧ s.sameRegs t [a] ∧ s.sameFlags t ∧ t.sp = s.sp ∧ s.sameCells t [] ∧ s.sameImage t ∧ s.samePorts t

/-- lsp ra: sp takes bits 9:0 of the register (R80). -/
def Obligations.LspRegisterTakesLowTenBits : Prop :=
  isR 0b11100 .lspReg ∧ ∀ (a : Reg) (s : State), ∃ t, exec (.lspReg a) s = .next t
    ∧ t.sp.toNat = (s.reg a).toNat % 1024 ∧ s.atNext t
    ∧ s.sameRegs t [] ∧ s.sameFlags t ∧ s.sameCells t [] ∧ s.sameImage t ∧ s.samePorts t

/-- rsp ra: the register takes sp, upper six bits zero (section rsp; the zeros are D11, log 16). -/
def Obligations.RspZeroExtendsSp : Prop :=
  isR 0b11101 .rsp ∧ ∀ (a : Reg) (s : State), ∃ t, exec (.rsp a) s = .next t
    ∧ (t.reg a).toNat = s.sp.toNat ∧ t.sp = s.sp ∧ s.atNext t
    ∧ s.sameRegs t [a] ∧ s.sameFlags t ∧ s.sameCells t [] ∧ s.sameImage t ∧ s.samePorts t

/-- not ra: every bit inverted, z from the result, c cleared (section not; z = 0 otherwise is D7, log 13). -/
def Obligations.NotInvertsEveryBit : Prop :=
  isR 0b10110 .not ∧ ∀ (a : Reg) (s : State), ∃ t, exec (.not a) s = .next t
    ∧ (∀ k, k < 16 → (t.reg a).getLsbD k = !(s.reg a).getLsbD k) ∧ (t.z = true ↔ t.reg a = 0) ∧ t.c = false ∧ s.atNext t
    ∧ s.sameRegs t [a] ∧ t.sp = s.sp ∧ s.sameCells t [] ∧ s.sameImage t ∧ s.samePorts t

/-! ## Register-register operations (42_register_register.md) -/

/-- mv: register B into register A, no flag (R90). -/
def Obligations.MvCopiesRegisterB : Prop :=
  isRR 0b00001 .mv ∧ ∀ (a b : Reg) (s : State), ∃ t, exec (.mv a b) s = .next t
    ∧ t.reg a = s.reg b ∧ s.atNext t
    ∧ s.sameRegs t [a] ∧ s.sameFlags t ∧ t.sp = s.sp ∧ s.sameCells t [] ∧ s.sameImage t ∧ s.samePorts t

/-- add: the sum mod 2^16; c and z (section add; c as the unsigned carry is D8, log 14, 0 otherwise is D7, log 13). -/
def Obligations.AddWrapsAndSetsCarry : Prop :=
  isRR 0b10010 .add ∧ ∀ (a b : Reg) (s : State), ∃ t, exec (.add a b) s = .next t
    ∧ (t.reg a).toNat = ((s.reg a).toNat + (s.reg b).toNat) % 65536
    ∧ (t.c = true ↔ 65536 ≤ (s.reg a).toNat + (s.reg b).toNat) ∧ (t.z = true ↔ t.reg a = 0) ∧ s.atNext t
    ∧ s.sameRegs t [a] ∧ t.sp = s.sp ∧ s.sameCells t [] ∧ s.sameImage t ∧ s.samePorts t

/-- sub: the difference mod 2^16; c and z (section sub; c as the unsigned borrow is D9, log 14, 0 otherwise is D7, log 13). -/
def Obligations.SubWrapsAndSetsBorrow : Prop :=
  isRR 0b10011 .sub ∧ ∀ (a b : Reg) (s : State), ∃ t, exec (.sub a b) s = .next t
    ∧ ((t.reg a).toNat : Int) = (((s.reg a).toNat : Int) - ((s.reg b).toNat : Int)) % 65536
    ∧ (t.c = true ↔ (s.reg a).toNat < (s.reg b).toNat) ∧ (t.z = true ↔ s.reg a = s.reg b) ∧ s.atNext t
    ∧ s.sameRegs t [a] ∧ t.sp = s.sp ∧ s.sameCells t [] ∧ s.sameImage t ∧ s.samePorts t

/-- cmp: z for equal, c for register B greater in two's complement, no register written (section cmp; 0 otherwise is D7, log 13; the
signed reading is the manual's text, kept by D27, log 14). -/
def Obligations.CmpComparesSigned : Prop :=
  isRR 0b01000 .cmp ∧ ∀ (a b : Reg) (s : State), ∃ t, exec (.cmp a b) s = .next t
    ∧ (t.z = true ↔ s.reg a = s.reg b) ∧ (t.c = true ↔ (s.reg b).toInt > (s.reg a).toInt) ∧ s.atNext t
    ∧ s.sameRegs t [] ∧ t.sp = s.sp ∧ s.sameCells t [] ∧ s.sameImage t ∧ s.samePorts t

/-- and: bit by bit, z from the result, c cleared (section and; z = 0 otherwise is D7, log 13). -/
def Obligations.AndCombinesBits : Prop :=
  isRR 0b10100 .and ∧ ∀ (a b : Reg) (s : State), ∃ t, exec (.and a b) s = .next t
    ∧ (∀ k, (t.reg a).getLsbD k = ((s.reg a).getLsbD k && (s.reg b).getLsbD k)) ∧ (t.z = true ↔ t.reg a = 0) ∧ t.c = false
    ∧ s.atNext t ∧ s.sameRegs t [a] ∧ t.sp = s.sp ∧ s.sameCells t [] ∧ s.sameImage t ∧ s.samePorts t

/-- or: bit by bit, z from the result, c cleared (section or; z = 0 otherwise is D7, log 13). -/
def Obligations.OrCombinesBits : Prop :=
  isRR 0b10101 .or ∧ ∀ (a b : Reg) (s : State), ∃ t, exec (.or a b) s = .next t
    ∧ (∀ k, (t.reg a).getLsbD k = ((s.reg a).getLsbD k || (s.reg b).getLsbD k)) ∧ (t.z = true ↔ t.reg a = 0) ∧ t.c = false
    ∧ s.atNext t ∧ s.sameRegs t [a] ∧ t.sp = s.sp ∧ s.sameCells t [] ∧ s.sameImage t ∧ s.samePorts t

/-- xor: bit by bit, z from the result, c cleared (section xor; z = 0 otherwise is D7, log 13). -/
def Obligations.XorCombinesBits : Prop :=
  isRR 0b10111 .xor ∧ ∀ (a b : Reg) (s : State), ∃ t, exec (.xor a b) s = .next t
    ∧ (∀ k, (t.reg a).getLsbD k = ((s.reg a).getLsbD k ^^ (s.reg b).getLsbD k)) ∧ (t.z = true ↔ t.reg a = 0) ∧ t.c = false
    ∧ s.atNext t ∧ s.sameRegs t [a] ∧ t.sp = s.sp ∧ s.sameCells t [] ∧ s.sameImage t ∧ s.samePorts t

/-- shr: bit k of the result is bit k + n of the operand, n the whole value of register B, zeros beyond bit 15; z from the result,
c cleared (section shr; amounts of 16 or more are D10, log 15; z = 0 otherwise is D7, log 13). -/
def Obligations.ShrShiftsByWholeRegister : Prop :=
  isRR 0b11000 .shr ∧ ∀ (a b : Reg) (s : State), ∃ t, exec (.shr a b) s = .next t
    ∧ (∀ k, (t.reg a).getLsbD k = (s.reg a).getLsbD (k + (s.reg b).toNat)) ∧ (t.z = true ↔ t.reg a = 0) ∧ t.c = false
    ∧ s.atNext t ∧ s.sameRegs t [a] ∧ t.sp = s.sp ∧ s.sameCells t [] ∧ s.sameImage t ∧ s.samePorts t

/-- shl: bit k of the result is bit k - n of the operand, n the whole value of register B, zeros below; z from the result, c cleared
(section shl; amounts of 16 or more are D10, log 15; z = 0 otherwise is D7, log 13). -/
def Obligations.ShlShiftsByWholeRegister : Prop :=
  isRR 0b11001 .shl ∧ ∀ (a b : Reg) (s : State), ∃ t, exec (.shl a b) s = .next t
    ∧ (∀ k, k < 16 → (t.reg a).getLsbD k
        = (decide ((s.reg b).toNat ≤ k) && (s.reg a).getLsbD (k - (s.reg b).toNat)))
    ∧ (t.z = true ↔ t.reg a = 0) ∧ t.c = false
    ∧ s.atNext t ∧ s.sameRegs t [a] ∧ t.sp = s.sp ∧ s.sameCells t [] ∧ s.sameImage t ∧ s.samePorts t

/-- After operands of equal sign bits, cmp and sub leave the same two flags; where the sign bits differ, their carries differ
(42_register_register.md section 1, the table of its last rule, and D27, log 14). -/
def Obligations.CmpCarryIsSubBorrowExactlyOnEqualSigns : Prop :=
  ∀ (a b : Reg) (s t u : State), exec (.cmp a b) s = .next t → exec (.sub a b) s = .next u →
    t.z = u.z ∧ (t.c = u.c ↔ (s.reg a).msb = (s.reg b).msb)

/-! ## Register-immediate operations (43_register_immediate.md) -/

/-- mvh: the immediate in bits 15:8, bits 7:0 kept, no flag (R105). -/
def Obligations.MvhReplacesHighByte : Prop :=
  isRI 0b00010 .mvh ∧ ∀ (a : Reg) (imm : BitVec 8) (s : State), ∃ t, exec (.mvh a imm) s = .next t
    ∧ (t.reg a).toNat = imm.toNat * 256 + (s.reg a).toNat % 256 ∧ s.atNext t
    ∧ s.sameRegs t [a] ∧ s.sameFlags t ∧ t.sp = s.sp ∧ s.sameCells t [] ∧ s.sameImage t ∧ s.samePorts t

/-- mvl: the immediate in bits 7:0, bits 15:8 kept, no flag (R106). -/
def Obligations.MvlReplacesLowByte : Prop :=
  isRI 0b00011 .mvl ∧ ∀ (a : Reg) (imm : BitVec 8) (s : State), ∃ t, exec (.mvl a imm) s = .next t
    ∧ (t.reg a).toNat = (s.reg a).toNat / 256 * 256 + imm.toNat ∧ s.atNext t
    ∧ s.sameRegs t [a] ∧ s.sameFlags t ∧ t.sp = s.sp ∧ s.sameCells t [] ∧ s.sameImage t ∧ s.samePorts t

/-! ## Load and store (44_load_store.md) -/

/-- ld, register offset: the cell at the bottom 10 bits of register B plus the offset, mod 2^10, into register A (section ld register
offset; the wrap is D5, log 11). -/
def Obligations.LdRegisterOffsetLoadsCell : Prop :=
  isMR 0b11110 .ldReg ∧ ∀ (a b : Reg) (off : Int) (s : State), ∃ t, exec (.ldReg a b off) s = .next t
    ∧ ((s.regAddr b off).toNat : Int) = (((s.reg b).toNat % 1024 : Nat) + off) % 1024
    ∧ t.reg a = s.memRead (s.regAddr b off) ∧ s.atNext t
    ∧ s.sameRegs t [a] ∧ s.sameFlags t ∧ t.sp = s.sp ∧ s.sameCells t [] ∧ s.sameImage t ∧ s.samePorts t

/-- st, register offset: register A into the cell at the bottom 10 bits of register B plus the offset, mod 2^10 (R111). -/
def Obligations.StRegisterOffsetStoresCell : Prop :=
  isMR 0b11111 .stReg ∧ ∀ (a b : Reg) (off : Int) (s : State), ∃ t, exec (.stReg a b off) s = .next t
    ∧ ((s.regAddr b off).toNat : Int) = (((s.reg b).toNat % 1024 : Nat) + off) % 1024
    ∧ t.memRead (s.regAddr b off) = s.reg a ∧ s.atNext t
    ∧ s.sameCells t [s.regAddr b off] ∧ s.sameRegs t [] ∧ s.sameFlags t ∧ t.sp = s.sp ∧ s.sameImage t ∧ s.samePorts t

/-- ld, stack offset: the cell at sp plus the offset, mod 2^10, into the register; sp is not changed (R112). -/
def Obligations.LdStackOffsetLoadsCell : Prop :=
  isMS 0b00100 .ldSp ∧ ∀ (a : Reg) (off : Int) (s : State), ∃ t, exec (.ldSp a off) s = .next t
    ∧ ((s.spAddr off).toNat : Int) = ((s.sp.toNat : Int) + off) % 1024
    ∧ t.reg a = s.memRead (s.spAddr off) ∧ s.atNext t
    ∧ s.sameRegs t [a] ∧ s.sameFlags t ∧ t.sp = s.sp ∧ s.sameCells t [] ∧ s.sameImage t ∧ s.samePorts t

/-- st, stack offset: the register into the cell at sp plus the offset, mod 2^10; sp is not changed (R113). -/
def Obligations.StStackOffsetStoresCell : Prop :=
  isMS 0b00101 .stSp ∧ ∀ (a : Reg) (off : Int) (s : State), ∃ t, exec (.stSp a off) s = .next t
    ∧ ((s.spAddr off).toNat : Int) = ((s.sp.toNat : Int) + off) % 1024
    ∧ t.memRead (s.spAddr off) = s.reg a ∧ s.atNext t
    ∧ s.sameCells t [s.spAddr off] ∧ s.sameRegs t [] ∧ s.sameFlags t ∧ t.sp = s.sp ∧ s.sameImage t ∧ s.samePorts t

/-! ## Address operations (45_address.md) -/

/-- call: pc + 1, zero-extended, at the old sp, sp decremented, pc the address (section call; the zero extension is D12, log 16, the
wrap D5, log 11, no increment on top D6, log 12). -/
def Obligations.CallPushesReturnAddress : Prop :=
  isA 0b01110 .call ∧ ∀ (addr : Addr) (s : State), ∃ t, exec (.call addr) s = .next t
    ∧ (t.memRead s.sp).toNat = (s.pc.toNat + 1) % 1024 ∧ t.sp = s.sp - 1 ∧ t.pc = addr
    ∧ s.sameCells t [s.sp] ∧ s.sameRegs t [] ∧ s.sameFlags t ∧ s.sameImage t ∧ s.samePorts t

/-- jmp: pc the address and nothing else (R121). -/
def Obligations.JmpSetsPc : Prop :=
  isA 0b01001 .jmp ∧ ∀ (addr : Addr) (s : State), ∃ t, exec (.jmp addr) s = .next t ∧ t.pc = addr
    ∧ s.sameRegs t [] ∧ s.sameFlags t ∧ t.sp = s.sp ∧ s.sameCells t [] ∧ s.sameImage t ∧ s.samePorts t

/-- jc: pc the address if c is 1, else the increment (R122). -/
def Obligations.JcJumpsIfCarry : Prop :=
  isA 0b01010 .jc ∧ ∀ (addr : Addr) (s : State), ∃ t, exec (.jc addr) s = .next t
    ∧ (if s.c = true then t.pc = addr else s.atNext t)
    ∧ s.sameRegs t [] ∧ s.sameFlags t ∧ t.sp = s.sp ∧ s.sameCells t [] ∧ s.sameImage t ∧ s.samePorts t

/-- jnc: pc the address if c is 0, else the increment (R123). -/
def Obligations.JncJumpsIfNoCarry : Prop :=
  isA 0b01011 .jnc ∧ ∀ (addr : Addr) (s : State), ∃ t, exec (.jnc addr) s = .next t
    ∧ (if s.c = false then t.pc = addr else s.atNext t)
    ∧ s.sameRegs t [] ∧ s.sameFlags t ∧ t.sp = s.sp ∧ s.sameCells t [] ∧ s.sameImage t ∧ s.samePorts t

/-- jz: pc the address if z is 1, else the increment (R124). -/
def Obligations.JzJumpsIfZero : Prop :=
  isA 0b01100 .jz ∧ ∀ (addr : Addr) (s : State), ∃ t, exec (.jz addr) s = .next t
    ∧ (if s.z = true then t.pc = addr else s.atNext t)
    ∧ s.sameRegs t [] ∧ s.sameFlags t ∧ t.sp = s.sp ∧ s.sameCells t [] ∧ s.sameImage t ∧ s.samePorts t

/-- jnz: pc the address if z is 0, else the increment (R125). -/
def Obligations.JnzJumpsIfNotZero : Prop :=
  isA 0b01101 .jnz ∧ ∀ (addr : Addr) (s : State), ∃ t, exec (.jnz addr) s = .next t
    ∧ (if s.z = false then t.pc = addr else s.atNext t)
    ∧ s.sameRegs t [] ∧ s.sameFlags t ∧ t.sp = s.sp ∧ s.sameCells t [] ∧ s.sameImage t ∧ s.samePorts t

/-- lsp addr: sp the address, pc the increment (R126). -/
def Obligations.LspImmediateSetsSp : Prop :=
  isA 0b11011 .lspImm ∧ ∀ (addr : Addr) (s : State), ∃ t, exec (.lspImm addr) s = .next t ∧ t.sp = addr ∧ s.atNext t
    ∧ s.sameRegs t [] ∧ s.sameFlags t ∧ s.sameCells t [] ∧ s.sameImage t ∧ s.samePorts t

/-! ## Instructions in sequence -/

/-- A ret in any state that kept the stack cell and sp of a call resumes at the instruction after the call, with sp as it was before
the call: a function that leaves the stack as it found it returns (45_address.md, 40_no_argument.md; D6, D12, log 12, log 16). -/
def Obligations.RetAfterCallResumes : Prop :=
  ∀ (addr : Addr) (s t u v : State), exec (.call addr) s = .next t → u.sp = t.sp → u.memRead s.sp = t.memRead s.sp →
    exec .ret u = .next v → v.pc = s.pc + 1 ∧ v.sp = s.sp

/-- push ra then pop rb copies ra to rb and leaves sp as it was (41_register.md, corner case of pop). -/
def Obligations.PopAfterPushCopies : Prop :=
  ∀ (a b : Reg) (s t u : State), exec (.push a) s = .next t → exec (.pop b) t = .next u →
    u.reg b = s.reg a ∧ u.sp = s.sp ∧ s.sameRegs u [b] ∧ s.sameFlags u ∧ s.sameCells u [s.sp]

/-- rsp ra then lsp ra leaves sp as it was (41_register.md, corner case of rsp; D11, log 16). -/
def Obligations.LspAfterRspKeepsSp : Prop :=
  ∀ (a : Reg) (s t u : State), exec (.rsp a) s = .next t → exec (.lspReg a) t = .next u → u.sp = s.sp

/-! ## The assembler (46_assembler.md) -/

/-- The two instructions that .ldtag expands to, executed in order, leave the tag's address zero-extended in the register and change
no other register, no flag, no cell and no port (section .ldtag; their order is D23, log 23). -/
def Obligations.LdtagLoadsTheTagsAddress : Prop :=
  ∀ (a : Reg) (addr : Addr) (s : State), ∃ i j t u, ldtagInstrs a addr = [i, j] ∧ exec i s = .next t ∧ exec j t = .next u
    ∧ (u.reg a).toNat = addr.toNat ∧ u.pc = s.pc + 2
    ∧ s.sameRegs u [a] ∧ s.sameFlags u ∧ u.sp = s.sp ∧ s.sameCells u [] ∧ s.sameImage u ∧ s.samePorts u

/-- Every image the assembler produces is in canonical form, so it places no word past 0x3FF (section 2; the form is the model's,
log 1). -/
def Obligations.AssembledImagesAreCanonical : Prop :=
  ∀ (packing : Option Config.StringPacking) (prog : List Line) (image : Memory),
    assemble packing prog = .ok image → image.wf = true

/-- A program of well-formed instructions without tags or directives, at most 1024 of them, assembles to the image that holds their
words from address 0x000 on, one address each, and defines no other cell (section 2; the start at 0x000 is D24, log 22). -/
def Obligations.StraightLineProgramIsPlacedInOrder : Prop :=
  ∀ is : List Instr, (∀ i ∈ is, i.wf = true) → is.length ≤ 1024 →
    ∃ image, assemble none (is.map fun i => ⟨none, .instr (.operands i)⟩) = .ok image
      ∧ ∀ k, image.read? k = (is[k]?).map encode

/-- A number that does not fit its field is refused, and one that fits is assembled to the instruction with that value: imm8 0 to
0xFF, off5 -16 to +15, off8 -128 to +127, addr 0 to 0x3FF (section 1, D22, log 22). -/
def Obligations.LiteralsOutsideTheirFieldAreRefused : Prop :=
  ∀ (tab : TagTable) (a b : Reg) (n : Int),
    (if 0 ≤ n ∧ n ≤ 0xFF then ∃ imm : BitVec 8, (imm.toNat : Int) = n ∧ (SrcInstr.mvh a n).resolve tab = .ok (.mvh a imm)
        ∧ (SrcInstr.mvl a n).resolve tab = .ok (.mvl a imm)
      else (SrcInstr.mvh a n).resolve tab = .error (.numberOutOfRange n)
        ∧ (SrcInstr.mvl a n).resolve tab = .error (.numberOutOfRange n))
    ∧ (if -16 ≤ n ∧ n ≤ 15 then (SrcInstr.operands (.ldReg a b n)).resolve tab = .ok (.ldReg a b n)
        ∧ (SrcInstr.operands (.stReg a b n)).resolve tab = .ok (.stReg a b n)
      else (SrcInstr.operands (.ldReg a b n)).resolve tab = .error (.numberOutOfRange n)
        ∧ (SrcInstr.operands (.stReg a b n)).resolve tab = .error (.numberOutOfRange n))
    ∧ (if -128 ≤ n ∧ n ≤ 127 then (SrcInstr.operands (.ldSp a n)).resolve tab = .ok (.ldSp a n)
        ∧ (SrcInstr.operands (.stSp a n)).resolve tab = .ok (.stSp a n)
      else (SrcInstr.operands (.ldSp a n)).resolve tab = .error (.numberOutOfRange n)
        ∧ (SrcInstr.operands (.stSp a n)).resolve tab = .error (.numberOutOfRange n))
    ∧ ∀ op : AddrOp,
        if 0 ≤ n ∧ n ≤ 0x3FF then
          ∃ addr : Addr, (addr.toNat : Int) = n ∧ (SrcInstr.address op (.num n)).resolve tab = .ok (op.instr addr)
        else (SrcInstr.address op (.num n)).resolve tab = .error (.numberOutOfRange n)
end

