-- ==== Sys2Proof/Laws/State.lean ====
section
/-! SUPPORT. For every update of the state, what each field and each read of the state is after it, true by definition, so that no
proof unfolds a record update. -/

namespace Sys2Proof.Machine

/-! ## setReg -/

@[simp] theorem State.setReg_regs (s : State) (r : Reg) (v : Word) : (s.setReg r v).regs = s.regs.set r v := rfl
@[simp] theorem State.setReg_pc (s : State) (r : Reg) (v : Word) : (s.setReg r v).pc = s.pc := rfl
@[simp] theorem State.setReg_sp (s : State) (r : Reg) (v : Word) : (s.setReg r v).sp = s.sp := rfl
@[simp] theorem State.setReg_c (s : State) (r : Reg) (v : Word) : (s.setReg r v).c = s.c := rfl
@[simp] theorem State.setReg_z (s : State) (r : Reg) (v : Word) : (s.setReg r v).z = s.z := rfl
@[simp] theorem State.setReg_dmem (s : State) (r : Reg) (v : Word) : (s.setReg r v).dmem = s.dmem := rfl
@[simp] theorem State.setReg_imem (s : State) (r : Reg) (v : Word) : (s.setReg r v).imem = s.imem := rfl
@[simp] theorem State.setReg_output (s : State) (r : Reg) (v : Word) : (s.setReg r v).output = s.output := rfl
@[simp] theorem State.setReg_inputScript (s : State) (r : Reg) (v : Word) : (s.setReg r v).inputScript = s.inputScript := rfl
@[simp] theorem State.setReg_inputCount (s : State) (r : Reg) (v : Word) : (s.setReg r v).inputCount = s.inputCount := rfl
@[simp] theorem State.setReg_memRead (s : State) (r : Reg) (v : Word) (x : Addr) : (s.setReg r v).memRead x = s.memRead x := rfl
@[simp] theorem State.setReg_fetchAt (s : State) (r : Reg) (v : Word) (x : Addr) : (s.setReg r v).fetchAt x = s.fetchAt x := rfl

/-! ## setPc -/

@[simp] theorem State.setPc_regs (s : State) (a : Addr) : (s.setPc a).regs = s.regs := rfl
@[simp] theorem State.setPc_pc (s : State) (a : Addr) : (s.setPc a).pc = a := rfl
@[simp] theorem State.setPc_sp (s : State) (a : Addr) : (s.setPc a).sp = s.sp := rfl
@[simp] theorem State.setPc_c (s : State) (a : Addr) : (s.setPc a).c = s.c := rfl
@[simp] theorem State.setPc_z (s : State) (a : Addr) : (s.setPc a).z = s.z := rfl
@[simp] theorem State.setPc_dmem (s : State) (a : Addr) : (s.setPc a).dmem = s.dmem := rfl
@[simp] theorem State.setPc_imem (s : State) (a : Addr) : (s.setPc a).imem = s.imem := rfl
@[simp] theorem State.setPc_output (s : State) (a : Addr) : (s.setPc a).output = s.output := rfl
@[simp] theorem State.setPc_inputScript (s : State) (a : Addr) : (s.setPc a).inputScript = s.inputScript := rfl
@[simp] theorem State.setPc_inputCount (s : State) (a : Addr) : (s.setPc a).inputCount = s.inputCount := rfl
@[simp] theorem State.setPc_reg (s : State) (a : Addr) (q : Reg) : (s.setPc a).reg q = s.reg q := rfl
@[simp] theorem State.setPc_memRead (s : State) (a : Addr) (x : Addr) : (s.setPc a).memRead x = s.memRead x := rfl
@[simp] theorem State.setPc_fetchAt (s : State) (a : Addr) (x : Addr) : (s.setPc a).fetchAt x = s.fetchAt x := rfl

/-! ## setSp -/

@[simp] theorem State.setSp_regs (s : State) (a : Addr) : (s.setSp a).regs = s.regs := rfl
@[simp] theorem State.setSp_pc (s : State) (a : Addr) : (s.setSp a).pc = s.pc := rfl
@[simp] theorem State.setSp_sp (s : State) (a : Addr) : (s.setSp a).sp = a := rfl
@[simp] theorem State.setSp_c (s : State) (a : Addr) : (s.setSp a).c = s.c := rfl
@[simp] theorem State.setSp_z (s : State) (a : Addr) : (s.setSp a).z = s.z := rfl
@[simp] theorem State.setSp_dmem (s : State) (a : Addr) : (s.setSp a).dmem = s.dmem := rfl
@[simp] theorem State.setSp_imem (s : State) (a : Addr) : (s.setSp a).imem = s.imem := rfl
@[simp] theorem State.setSp_output (s : State) (a : Addr) : (s.setSp a).output = s.output := rfl
@[simp] theorem State.setSp_inputScript (s : State) (a : Addr) : (s.setSp a).inputScript = s.inputScript := rfl
@[simp] theorem State.setSp_inputCount (s : State) (a : Addr) : (s.setSp a).inputCount = s.inputCount := rfl
@[simp] theorem State.setSp_reg (s : State) (a : Addr) (q : Reg) : (s.setSp a).reg q = s.reg q := rfl
@[simp] theorem State.setSp_memRead (s : State) (a : Addr) (x : Addr) : (s.setSp a).memRead x = s.memRead x := rfl
@[simp] theorem State.setSp_fetchAt (s : State) (a : Addr) (x : Addr) : (s.setSp a).fetchAt x = s.fetchAt x := rfl

/-! ## setFlags -/

@[simp] theorem State.setFlags_regs (s : State) (c z : Bool) : (s.setFlags c z).regs = s.regs := rfl
@[simp] theorem State.setFlags_pc (s : State) (c z : Bool) : (s.setFlags c z).pc = s.pc := rfl
@[simp] theorem State.setFlags_sp (s : State) (c z : Bool) : (s.setFlags c z).sp = s.sp := rfl
@[simp] theorem State.setFlags_c (s : State) (c z : Bool) : (s.setFlags c z).c = c := rfl
@[simp] theorem State.setFlags_z (s : State) (c z : Bool) : (s.setFlags c z).z = z := rfl
@[simp] theorem State.setFlags_dmem (s : State) (c z : Bool) : (s.setFlags c z).dmem = s.dmem := rfl
@[simp] theorem State.setFlags_imem (s : State) (c z : Bool) : (s.setFlags c z).imem = s.imem := rfl
@[simp] theorem State.setFlags_output (s : State) (c z : Bool) : (s.setFlags c z).output = s.output := rfl
@[simp] theorem State.setFlags_inputScript (s : State) (c z : Bool) : (s.setFlags c z).inputScript = s.inputScript := rfl
@[simp] theorem State.setFlags_inputCount (s : State) (c z : Bool) : (s.setFlags c z).inputCount = s.inputCount := rfl
@[simp] theorem State.setFlags_reg (s : State) (c z : Bool) (q : Reg) : (s.setFlags c z).reg q = s.reg q := rfl
@[simp] theorem State.setFlags_memRead (s : State) (c z : Bool) (x : Addr) : (s.setFlags c z).memRead x = s.memRead x := rfl
@[simp] theorem State.setFlags_fetchAt (s : State) (c z : Bool) (x : Addr) : (s.setFlags c z).fetchAt x = s.fetchAt x := rfl

/-! ## memWrite -/

@[simp] theorem State.memWrite_regs (s : State) (a : Addr) (v : Word) : (s.memWrite a v).regs = s.regs := rfl
@[simp] theorem State.memWrite_pc (s : State) (a : Addr) (v : Word) : (s.memWrite a v).pc = s.pc := rfl
@[simp] theorem State.memWrite_sp (s : State) (a : Addr) (v : Word) : (s.memWrite a v).sp = s.sp := rfl
@[simp] theorem State.memWrite_c (s : State) (a : Addr) (v : Word) : (s.memWrite a v).c = s.c := rfl
@[simp] theorem State.memWrite_z (s : State) (a : Addr) (v : Word) : (s.memWrite a v).z = s.z := rfl
@[simp] theorem State.memWrite_dmem (s : State) (a : Addr) (v : Word) : (s.memWrite a v).dmem = s.dmem.write a.toNat v := rfl
@[simp] theorem State.memWrite_imem (s : State) (a : Addr) (v : Word) : (s.memWrite a v).imem = s.imem := rfl
@[simp] theorem State.memWrite_output (s : State) (a : Addr) (v : Word) : (s.memWrite a v).output = s.output := rfl
@[simp] theorem State.memWrite_inputScript (s : State) (a : Addr) (v : Word) : (s.memWrite a v).inputScript = s.inputScript := rfl
@[simp] theorem State.memWrite_inputCount (s : State) (a : Addr) (v : Word) : (s.memWrite a v).inputCount = s.inputCount := rfl
@[simp] theorem State.memWrite_reg (s : State) (a : Addr) (v : Word) (q : Reg) : (s.memWrite a v).reg q = s.reg q := rfl
@[simp] theorem State.memWrite_fetchAt (s : State) (a : Addr) (v : Word) (x : Addr) : (s.memWrite a v).fetchAt x = s.fetchAt x := rfl

/-! ## tookInput -/

@[simp] theorem State.tookInput_regs (s : State) : (s.tookInput).regs = s.regs := rfl
@[simp] theorem State.tookInput_pc (s : State) : (s.tookInput).pc = s.pc := rfl
@[simp] theorem State.tookInput_sp (s : State) : (s.tookInput).sp = s.sp := rfl
@[simp] theorem State.tookInput_c (s : State) : (s.tookInput).c = s.c := rfl
@[simp] theorem State.tookInput_z (s : State) : (s.tookInput).z = s.z := rfl
@[simp] theorem State.tookInput_dmem (s : State) : (s.tookInput).dmem = s.dmem := rfl
@[simp] theorem State.tookInput_imem (s : State) : (s.tookInput).imem = s.imem := rfl
@[simp] theorem State.tookInput_output (s : State) : (s.tookInput).output = s.output := rfl
@[simp] theorem State.tookInput_inputScript (s : State) : (s.tookInput).inputScript = s.inputScript.tail := rfl
@[simp] theorem State.tookInput_inputCount (s : State) : (s.tookInput).inputCount = s.inputCount + 1 := rfl
@[simp] theorem State.tookInput_reg (s : State) (q : Reg) : (s.tookInput).reg q = s.reg q := rfl
@[simp] theorem State.tookInput_memRead (s : State) (x : Addr) : (s.tookInput).memRead x = s.memRead x := rfl
@[simp] theorem State.tookInput_fetchAt (s : State) (x : Addr) : (s.tookInput).fetchAt x = s.fetchAt x := rfl

/-! ## portOut -/

@[simp] theorem State.portOut_regs (s : State) (v : Word) : (s.portOut v).regs = s.regs := rfl
@[simp] theorem State.portOut_pc (s : State) (v : Word) : (s.portOut v).pc = s.pc := rfl
@[simp] theorem State.portOut_sp (s : State) (v : Word) : (s.portOut v).sp = s.sp := rfl
@[simp] theorem State.portOut_c (s : State) (v : Word) : (s.portOut v).c = s.c := rfl
@[simp] theorem State.portOut_z (s : State) (v : Word) : (s.portOut v).z = s.z := rfl
@[simp] theorem State.portOut_dmem (s : State) (v : Word) : (s.portOut v).dmem = s.dmem := rfl
@[simp] theorem State.portOut_imem (s : State) (v : Word) : (s.portOut v).imem = s.imem := rfl
@[simp] theorem State.portOut_output (s : State) (v : Word) : (s.portOut v).output = s.output ++ [v] := rfl
@[simp] theorem State.portOut_inputScript (s : State) (v : Word) : (s.portOut v).inputScript = s.inputScript := rfl
@[simp] theorem State.portOut_inputCount (s : State) (v : Word) : (s.portOut v).inputCount = s.inputCount := rfl
@[simp] theorem State.portOut_reg (s : State) (v : Word) (q : Reg) : (s.portOut v).reg q = s.reg q := rfl
@[simp] theorem State.portOut_memRead (s : State) (v : Word) (x : Addr) : (s.portOut v).memRead x = s.memRead x := rfl
@[simp] theorem State.portOut_fetchAt (s : State) (v : Word) (x : Addr) : (s.portOut v).fetchAt x = s.fetchAt x := rfl

end Sys2Proof.Machine
end

