-- ==== Sys2Proof/Laws/Memory.lean ====
section
/-! SUPPORT. Registers and memories as data: a read after a write, and the canonical form that every write keeps. -/

namespace Sys2Proof.Machine

/-! ## The register file (spec/10_state.md R11) -/

@[simp] theorem Regs.get_set_self (g : Regs) (r : Reg) (v : Word) : (g.set r v).get r = v := by
  cases r <;> rfl

theorem Regs.get_set_of_ne (g : Regs) (r q : Reg) (v : Word) (h : q ≠ r) : (g.set r v).get q = g.get q := by
  cases r <;> cases q <;> first | rfl | exact absurd rfl h

@[simp] theorem State.reg_setReg_self (s : State) (r : Reg) (v : Word) : (s.setReg r v).reg r = v :=
  Regs.get_set_self s.regs r v

theorem State.reg_setReg_of_ne (s : State) (r q : Reg) (v : Word) (h : q ≠ r) : (s.setReg r v).reg q = s.reg q :=
  Regs.get_set_of_ne s.regs r q v h

/-! ## Memory lists -/

@[simp] theorem Memory.read?_write_self (m : Memory) (a : Nat) (v : Word) : (m.write a v).read? a = some v := by
  induction m with
  | nil => simp [Memory.write, Memory.read?]
  | cons e m ih =>
    obtain ⟨b, w⟩ := e
    by_cases hlt : a < b
    · simp [Memory.write, Memory.read?, hlt]
    · by_cases heq : a = b
      · simp [Memory.write, Memory.read?, heq]
      · simp [Memory.write, Memory.read?, hlt, heq, ih]

theorem Memory.read?_write_of_ne (m : Memory) (a x : Nat) (v : Word) (h : x ≠ a) : (m.write a v).read? x = m.read? x := by
  induction m with
  | nil => simp [Memory.write, Memory.read?, h]
  | cons e m ih =>
    obtain ⟨b, w⟩ := e
    by_cases hlt : a < b
    · simp [Memory.write, Memory.read?, hlt, h]
    · by_cases heq : a = b
      · subst heq
        simp [Memory.write, Memory.read?, h]
      · simp [Memory.write, Memory.read?, hlt, heq, ih]

/-- A read after a write, once and for all. -/
theorem Memory.read?_write (m : Memory) (a x : Nat) (v : Word) :
    (m.write a v).read? x = if x = a then some v else m.read? x := by
  by_cases h : x = a
  · simp [h]
  · simp [h, Memory.read?_write_of_ne]

theorem Memory.wfFrom_write (lo : Nat) (m : Memory) (a : Nat) (v : Word) (hlo : lo ≤ a) (ha : a < 1024)
    (hm : Memory.wfFrom lo m = true) : Memory.wfFrom lo (m.write a v) = true := by
  induction m generalizing lo with
  | nil => simp [Memory.write, Memory.wfFrom, hlo, ha]
  | cons e m ih =>
    obtain ⟨b, w⟩ := e
    simp only [Memory.wfFrom, Bool.and_eq_true, decide_eq_true_eq] at hm
    obtain ⟨⟨hb, hb'⟩, hm⟩ := hm
    by_cases hlt : a < b
    · simp [Memory.write, Memory.wfFrom, hlt, hlo, ha, hb', hm, Nat.succ_le_of_lt hlt]
    · by_cases heq : a = b
      · subst heq
        simp [Memory.write, Memory.wfFrom, hlo, ha, hm]
      · have hba : b + 1 ≤ a := by omega
        simp [Memory.write, Memory.wfFrom, hlt, heq, hb, hb', ih (b + 1) hba hm]

/-- A write below address 1024 keeps the canonical form. -/
theorem Memory.wf_write (m : Memory) (a : Nat) (v : Word) (ha : a < 1024) (hm : m.wf = true) : (m.write a v).wf = true :=
  Memory.wfFrom_write 0 m a v (Nat.zero_le a) ha hm

@[simp] theorem Memory.wf_nil : Memory.wf [] = true := rfl

/-- A memory in canonical form lists nothing below its first address. -/
theorem Memory.read?_eq_none_of_lt (lo : Nat) (m : Memory) (hm : Memory.wfFrom lo m = true) (x : Nat) (hx : x < lo) :
    m.read? x = none := by
  induction m generalizing lo with
  | nil => rfl
  | cons e m ih =>
    obtain ⟨b, w⟩ := e
    simp only [Memory.wfFrom, Bool.and_eq_true, decide_eq_true_eq] at hm
    have hne : x ≠ b := by omega
    simp [Memory.read?, hne, ih (b + 1) hm.2 (by omega)]

/-- Two memories in canonical form that list the same values are the same data. -/
theorem Memory.ext_of_wf (lo : Nat) (m n : Memory) (hm : Memory.wfFrom lo m = true) (hn : Memory.wfFrom lo n = true)
    (h : ∀ x, m.read? x = n.read? x) : m = n := by
  induction m generalizing lo n with
  | nil =>
    cases n with
    | nil => rfl
    | cons e n =>
      obtain ⟨b, w⟩ := e
      simpa [Memory.read?] using h b
  | cons e m ih =>
    obtain ⟨b, w⟩ := e
    cases n with
    | nil => simpa [Memory.read?] using h b
    | cons f n =>
      obtain ⟨b', w'⟩ := f
      simp only [Memory.wfFrom, Bool.and_eq_true, decide_eq_true_eq] at hm hn
      have hbb : b = b' := by
        rcases Nat.lt_trichotomy b b' with hlt | heq | hgt
        · have hb := h b
          simp [Memory.read?, Nat.ne_of_lt hlt, Memory.read?_eq_none_of_lt (b' + 1) n hn.2 b (by omega)] at hb
        · exact heq
        · have hb := h b'
          simp [Memory.read?, Nat.ne_of_lt hgt, Memory.read?_eq_none_of_lt (b + 1) m hm.2 b' (by omega)] at hb
      subst hbb
      have hw : w = w' := by simpa [Memory.read?] using h b
      subst hw
      have hrest : m = n := by
        refine ih (b + 1) n hm.2 hn.2 fun x => ?_
        by_cases hx : x = b
        · subst hx
          rw [Memory.read?_eq_none_of_lt (x + 1) m hm.2 x (by omega), Memory.read?_eq_none_of_lt (x + 1) n hn.2 x (by omega)]
        · simpa [Memory.read?, hx] using h x
      rw [hrest]

/-! ## The data space of a state (spec/20_memory.md R36, R38) -/

@[simp] theorem State.memRead_memWrite_self (s : State) (a : Addr) (v : Word) : (s.memWrite a v).memRead a = v := by
  simp [State.memRead]

theorem State.memRead_memWrite_of_ne (s : State) (a x : Addr) (v : Word) (h : x ≠ a) :
    (s.memWrite a v).memRead x = s.memRead x := by
  have hn : x.toNat ≠ a.toNat := fun e => h (BitVec.eq_of_toNat_eq e)
  simp [State.memRead, Memory.read?_write_of_ne _ _ _ _ hn]

/-- A store keeps both memories of a state in canonical form. -/
theorem State.wf_memWrite (s : State) (a : Addr) (v : Word) (h : s.wf = true) : (s.memWrite a v).wf = true := by
  simp only [State.wf, Bool.and_eq_true, State.memWrite_dmem, State.memWrite_imem] at h ⊢
  exact ⟨Memory.wf_write _ _ _ a.isLt h.1, h.2⟩

/-- Placing a word where the next fetch looks keeps the canonical form; so does everything that leaves both memories alone. -/
theorem State.wf_of_same_memories (s t : State) (hd : t.dmem = s.dmem) (hi : t.imem = s.imem) : t.wf = s.wf := by
  simp [State.wf, hd, hi]

end Sys2Proof.Machine
end

