-- ==== Sys2Proof/Laws/Values.lean ====
section
/-! SUPPORT. The operand and flag computations as numbers and as BitVec operations, one lemma each, so that later proofs need not
unfold them. -/

namespace Sys2Proof.Machine

/-- Concatenation as a number: the left part above the right one. -/
theorem toNat_append_eq {m n : Nat} (x : BitVec m) (y : BitVec n) : (x ++ y).toNat = x.toNat * 2 ^ n + y.toNat := by
  rw [BitVec.toNat_append, ← Nat.shiftLeft_add_eq_or_of_lt y.isLt, Nat.shiftLeft_eq]

@[simp] theorem low10_toNat (v : Word) : (low10 v).toNat = v.toNat % 1024 := by
  simp [low10]

@[simp] theorem zext10_toNat (a : Addr) : (zext10 a).toNat = a.toNat := by
  have := a.isLt
  simp only [zext10, BitVec.toNat_ofNat]
  omega

/-- What `lsp` after `rsp`, and `ret` after `call`, rest on (D11, D12). -/
@[simp] theorem low10_zext10 (a : Addr) : low10 (zext10 a) = a := by
  apply BitVec.eq_of_toNat_eq
  have := a.isLt
  rw [low10_toNat, zext10_toNat]
  omega

@[simp] theorem nextAddr_toNat (a : Addr) : (nextAddr a).toNat = (a.toNat + 1) % 1024 := by
  simp [nextAddr]

theorem nextAddr_eq_add_one (a : Addr) : nextAddr a = a + 1 := by
  apply BitVec.eq_of_toNat_eq
  simp

@[simp] theorem prevAddr_toNat (a : Addr) : (prevAddr a).toNat = (a.toNat + 1023) % 1024 := by
  have := a.isLt
  simp only [prevAddr, BitVec.toNat_ofInt]
  omega

theorem prevAddr_eq_sub_one (a : Addr) : prevAddr a = a - 1 := by
  apply BitVec.eq_of_toNat_eq
  have h1 : (1 : Addr).toNat = 1 := rfl
  rw [prevAddr_toNat, BitVec.toNat_sub, h1]
  omega

/-- A push followed by a pop leaves sp as it was. -/
@[simp] theorem nextAddr_prevAddr (a : Addr) : nextAddr (prevAddr a) = a := by
  apply BitVec.eq_of_toNat_eq
  have := a.isLt
  rw [nextAddr_toNat, prevAddr_toNat]
  omega

/-- An effective address is the exact sum reduced mod 2^10 (spec/20_memory.md R39). -/
theorem effAddr_toNat (base : Addr) (off : Int) : ((effAddr base off).toNat : Int) = ((base.toNat : Int) + off) % 1024 := by
  simp only [effAddr, BitVec.toNat_ofInt]
  have h : 0 ≤ ((base.toNat : Int) + off) % ((2 ^ 10 : Nat) : Int) := Int.emod_nonneg _ (by decide)
  rw [Int.toNat_of_nonneg h]
  norm_num

theorem addWords_eq_add (x y : Word) : addWords x y = x + y := by
  apply BitVec.eq_of_toNat_eq
  simp [addWords]

@[simp] theorem addWords_toNat (x y : Word) : (addWords x y).toNat = (x.toNat + y.toNat) % 65536 := by
  simp [addWords]

theorem subWords_toNat (x y : Word) : ((subWords x y).toNat : Int) = ((x.toNat : Int) - (y.toNat : Int)) % 65536 := by
  simp only [subWords, BitVec.toNat_ofInt]
  have h : 0 ≤ ((x.toNat : Int) - (y.toNat : Int)) % ((2 ^ 16 : Nat) : Int) := Int.emod_nonneg _ (by decide)
  rw [Int.toNat_of_nonneg h]
  norm_num

theorem subWords_eq_sub (x y : Word) : subWords x y = x - y := by
  apply BitVec.eq_of_toNat_eq
  have hx := x.isLt
  have hy := y.isLt
  have h := subWords_toNat x y
  rw [BitVec.toNat_sub]
  omega

theorem shiftRight_toNat (x n : Word) :
    (shiftRight x n).toNat = if 16 ≤ n.toNat then 0 else x.toNat / 2 ^ n.toNat := by
  unfold shiftRight
  split
  · rfl
  · have h : x.toNat / 2 ^ n.toNat < 2 ^ 16 := lt_of_le_of_lt (Nat.div_le_self _ _) x.isLt
    rw [BitVec.toNat_ofNat, Nat.mod_eq_of_lt h]

theorem shiftLeft_toNat (x n : Word) :
    (shiftLeft x n).toNat = if 16 ≤ n.toNat then 0 else x.toNat * 2 ^ n.toNat % 65536 := by
  unfold shiftLeft
  split
  · rfl
  · rw [BitVec.toNat_ofNat]

theorem withHighByte_toNat (v : Word) (imm : BitVec 8) : (withHighByte v imm).toNat = imm.toNat * 256 + v.toNat % 256 := by
  have := v.isLt
  simp only [withHighByte, toNat_append_eq, BitVec.extractLsb'_toNat, Nat.shiftRight_eq_div_pow]
  omega

theorem withLowByte_toNat (v : Word) (imm : BitVec 8) : (withLowByte v imm).toNat = v.toNat / 256 * 256 + imm.toNat := by
  have := v.isLt
  simp only [withLowByte, toNat_append_eq, BitVec.extractLsb'_toNat, Nat.shiftRight_eq_div_pow]
  omega

@[simp] theorem isZero_eq_true (v : Word) : isZero v = true ↔ v = 0 := by
  simp [isZero]

@[simp] theorem carryOfAdd_eq_true (x y : Word) : carryOfAdd x y = true ↔ 65536 ≤ x.toNat + y.toNat := by
  simp [carryOfAdd]

@[simp] theorem borrowOfSub_eq_true (x y : Word) : borrowOfSub x y = true ↔ x.toNat < y.toNat := by
  simp [borrowOfSub]

@[simp] theorem signedLess_eq_true (x y : Word) : signedLess x y = true ↔ x.toInt < y.toInt := by
  simp [signedLess]

@[simp] theorem equalWords_eq_true (x y : Word) : equalWords x y = true ↔ x = y := by
  simp [equalWords]

end Sys2Proof.Machine
end

