-- ==== Sys2Proof/Laws/Assembler.lean ====
section
/-! SUPPORT. The assembler's shared operations, one lemma each (spec/46_assembler.md R142 to R144): how far the location counter
advances, which bytes a string's cells hold, what placing words does to an image, and that no gap's cell is defined. -/

namespace Sys2Proof.Machine

@[simp] theorem advance_toNat (lc : Addr) (n : Nat) : (advance lc n).toNat = (lc.toNat + n) % 1024 := by
  simp [advance]

/-- Advancing twice is advancing by the sum. -/
@[simp] theorem advance_advance (lc : Addr) (m n : Nat) : advance (advance lc m) n = advance lc (m + n) := by
  apply BitVec.eq_of_toNat_eq
  simp only [advance_toNat]
  omega

/-! ## The cells of a string -/

/-- The two bytes of a cell, the high one first or the low one. -/
def bytesOfCell (firstHigh : Bool) (w : Word) : List Byte :=
  if firstHigh then [w.extractLsb' 8 8, w.extractLsb' 0 8] else [w.extractLsb' 0 8, w.extractLsb' 8 8]

@[simp] theorem bytesOfCell_cellOfBytes (firstHigh : Bool) (x y : Byte) :
    bytesOfCell firstHigh (cellOfBytes firstHigh x y) = [x, y] := by
  have high : ∀ u v : Byte, (u ++ v).extractLsb' 8 8 = u := fun u v => by
    apply BitVec.eq_of_toNat_eq
    have := v.isLt
    simp only [BitVec.extractLsb'_toNat, toNat_append_eq, Nat.shiftRight_eq_div_pow]
    omega
  have low : ∀ u v : Byte, (u ++ v).extractLsb' 0 8 = v := fun u v => by
    apply BitVec.eq_of_toNat_eq
    have := v.isLt
    simp only [BitVec.extractLsb'_toNat, toNat_append_eq, Nat.shiftRight_eq_div_pow]
    omega
  cases firstHigh <;> simp [bytesOfCell, cellOfBytes, high, low]

/-- Reading cells back gives the bytes packed two to a cell, and the padding after an odd number. -/
theorem packPairs_bytes (firstHigh : Bool) (pad : Byte) (bs : List Byte) :
    (packPairs firstHigh pad bs).flatMap (bytesOfCell firstHigh) = bs ++ List.replicate (bs.length % 2) pad := by
  induction bs using packPairs.induct with
  | case1 => rfl
  | case2 x => simp [packPairs]
  | case3 x y bs ih =>
    have hlen : (bs.length + 1 + 1) % 2 = bs.length % 2 := by omega
    simp [packPairs, ih, hlen]

/-- Every layout places the string's bytes and, after them, the null byte: one to a cell beside the padding, or two to a cell with
the padding after an odd number (R144). -/
theorem stringCells_bytes (p : Config.StringPacking) (text : List Char) :
    match p.layout with
    | .onePerCell inHigh pad =>
      (stringCells p text).map (bytesOfCell inHigh) = (p.bytes text ++ [0x00]).map fun x => [x, pad]
    | .twoPerCell firstHigh pad =>
      (stringCells p text).flatMap (bytesOfCell firstHigh)
        = (p.bytes text ++ [0x00]) ++ List.replicate ((p.bytes text).length.succ % 2) pad := by
  split <;> rename_i h
  · simp [stringCells, packBytes, h]
  · simp [stringCells, packBytes, h, packPairs_bytes]

/-! ## Placing words -/

/-- What placing words can do: if an image results, word number k stands at the location k further on, where nothing stood before,
every other cell is as it was, and the canonical form is kept. -/
theorem placeWords_spec (m : Memory) (lc : Addr) (ws : List Word) (m' : Memory) (h : placeWords m lc ws = .ok m') :
    (∀ k w, ws[k]? = some w → m.read? (advance lc k).toNat = none ∧ m'.read? (advance lc k).toNat = some w)
      ∧ (∀ x, (∀ k, k < ws.length → x ≠ (advance lc k).toNat) → m'.read? x = m.read? x)
      ∧ (m.wf = true → m'.wf = true) := by
  induction ws generalizing m lc with
  | nil =>
    cases h
    exact ⟨fun k w hk => by simp at hk, fun _ _ => rfl, id⟩
  | cons v ws ih =>
    have h0 : advance lc 0 = lc := by
      apply BitVec.eq_of_toNat_eq
      have := lc.isLt
      rw [advance_toNat]
      omega
    unfold placeWords at h
    split at h
    · cases h
    · rename_i hfree
      obtain ⟨hws, hrest, hwf⟩ := ih _ _ h
      have hshift : ∀ k, advance (advance lc 1) k = advance lc (k + 1) := fun k => by
        rw [advance_advance, Nat.add_comm]
      have hold : ∀ k w, ws[k]? = some w → (advance lc (k + 1)).toNat ≠ lc.toNat := fun k w hk heq => by
        have := (hws k w hk).1
        rw [hshift, heq] at this
        simp at this
      refine ⟨fun k w hk => ?_, fun x hx => ?_, fun hm => hwf (Memory.wf_write _ _ _ lc.isLt hm)⟩
      · cases k with
        | zero =>
          obtain rfl : v = w := by simpa using hk
          rw [h0]
          refine ⟨hfree, ?_⟩
          rw [hrest lc.toNat, Memory.read?_write_self]
          intro k hk heq
          exact hold k ws[k] (List.getElem?_eq_getElem hk) (by rw [← hshift]; exact heq.symm)
        | succ k =>
          have hk' : ws[k]? = some w := by simpa using hk
          have := hws k w hk'
          rw [hshift, Memory.read?_write_of_ne _ _ _ _ (hold k w hk')] at this
          exact this
      · rw [hrest x fun k hk => ?_, Memory.read?_write_of_ne]
        · simpa [h0] using hx 0 (by simp)
        · rw [hshift]
          exact hx (k + 1) (by simpa using hk)

/-! ## Gaps -/

/-- A memory that lists a value at an address lists the pair. -/
theorem Memory.mem_of_read? (m : Memory) (a : Nat) (v : Word) (h : m.read? a = some v) : (a, v) ∈ m := by
  induction m with
  | nil => cases h
  | cons e m ih =>
    obtain ⟨b, w⟩ := e
    by_cases hb : a = b
    · subst hb
      obtain rfl : w = v := by simpa [Memory.read?] using h
      exact List.mem_cons_self
    · exact List.mem_cons_of_mem _ (ih (by simpa [Memory.read?, hb] using h))

/-- The gap from `lc` on holds the locations `size` advances reach. -/
theorem inGap_advance (lc : Addr) (size k : Nat) (hk : k < size) : inGap lc size (advance lc k) = true := by
  have := lc.isLt
  simp only [inGap, BitVec.toNat_sub, advance_toNat, decide_eq_true_eq]
  omega

/-- What checking the gaps can do: if an image results, it is the one given, and it defines no cell of a gap (R146). -/
theorem checkGaps_spec (image : Memory) (ls : List (Addr × Line)) (image' : Memory) (h : checkGaps image ls = .ok image') :
    image' = image ∧ ∀ e ∈ ls, ∀ k, k < e.2.stmt.gap → image.read? (advance e.1 k).toNat = none := by
  induction ls with
  | nil => cases h; exact ⟨rfl, fun e he => nomatch he⟩
  | cons f ls ih =>
    obtain ⟨lc, l⟩ := f
    unfold checkGaps at h
    split at h
    · cases h
    · rename_i hnone
      obtain ⟨himage, hrest⟩ := ih h
      refine ⟨himage, fun e he k hk => ?_⟩
      rcases List.mem_cons.mp he with rfl | he
      · cases hread : image.read? (advance lc k).toNat with
        | none => rfl
        | some v =>
          have hfree := List.find?_eq_none.mp hnone _ (image.mem_of_read? _ _ hread)
          rw [BitVec.ofNat_toNat, BitVec.setWidth_eq] at hfree
          exact absurd (inGap_advance lc _ k hk) hfree
      · exact hrest e he k hk

/-- Where no line reserves a cell, checking the gaps changes nothing. -/
theorem checkGaps_of_no_gap (image : Memory) (ls : List (Addr × Line)) (h : ∀ e ∈ ls, e.2.stmt.gap = 0) :
    checkGaps image ls = .ok image := by
  induction ls with
  | nil => rfl
  | cons f ls ih =>
    obtain ⟨lc, l⟩ := f
    have hl : l.stmt.gap = 0 := h (lc, l) List.mem_cons_self
    have hnone : (image.find? fun e => inGap lc l.stmt.gap (BitVec.ofNat 10 e.1)) = none :=
      List.find?_eq_none.mpr fun e _ => by simp [inGap, hl]
    simp only [checkGaps, hnone]
    exact ih fun e he => h e (List.mem_cons_of_mem _ he)

/-- What assembling can do: if an image results, the program was located and its tags collected, the image is what placing its words
gives, and it defines no cell of a gap. -/
theorem assemble_spec (packing : Option Config.StringPacking) (prog : List Line) (image : Memory)
    (h : assemble packing prog = .ok image) :
    ∃ located tab, locate packing 0x000 prog = .ok located ∧ collectTags [] located = .ok tab
      ∧ placeAll packing tab [] located = .ok image
      ∧ ∀ e ∈ located, ∀ k, k < e.2.stmt.gap → image.read? (advance e.1 k).toNat = none := by
  unfold assemble at h
  split at h
  · cases h
  · rename_i located hlocated
    split at h
    · cases h
    · rename_i tab htab
      split at h
      · cases h
      · rename_i placed hplaced
        obtain ⟨rfl, hgaps⟩ := checkGaps_spec _ _ _ h
        exact ⟨located, tab, hlocated, htab, hplaced, hgaps⟩

end Sys2Proof.Machine
end

