-- ==== Sys2Proof/Laws/Encoding.lean ====
section
/-! SUPPORT. The fields of a word that is written as the concatenation of its fields, once for each layout (spec/30_encoding.md R53
to R60), and the register field both ways. -/

namespace Sys2Proof

@[simp] theorem Reg.ofBits_toBits (r : Reg) : Reg.ofBits r.toBits = r := by
  cases r <;> rfl

@[simp] theorem Reg.toBits_ofBits : ∀ b : BitVec 3, (Reg.ofBits b).toBits = b := by
  decide

/-! ## Formats RR and MR: opcode, register, register, five bits -/

@[simp] theorem opField_reg_reg (op : Opcode) (a b : BitVec 3) (x : BitVec 5) : opField (op ++ a ++ b ++ x) = op := by
  apply BitVec.eq_of_toNat_eq
  simp only [opField, BitVec.extractLsb'_toNat, Machine.toNat_append_eq, Nat.shiftRight_eq_div_pow]
  omega

@[simp] theorem regA_reg_reg (op : Opcode) (a b : BitVec 3) (x : BitVec 5) : regA (op ++ a ++ b ++ x) = Reg.ofBits a := by
  unfold regA
  congr 1
  apply BitVec.eq_of_toNat_eq
  simp only [BitVec.extractLsb'_toNat, Machine.toNat_append_eq, Nat.shiftRight_eq_div_pow]
  omega

@[simp] theorem regB_reg_reg (op : Opcode) (a b : BitVec 3) (x : BitVec 5) : regB (op ++ a ++ b ++ x) = Reg.ofBits b := by
  unfold regB
  congr 1
  apply BitVec.eq_of_toNat_eq
  simp only [BitVec.extractLsb'_toNat, Machine.toNat_append_eq, Nat.shiftRight_eq_div_pow]
  omega

@[simp] theorem off5Field_reg_reg (op : Opcode) (a b : BitVec 3) (x : BitVec 5) : off5Field (op ++ a ++ b ++ x) = x.toInt := by
  unfold off5Field
  congr 1
  apply BitVec.eq_of_toNat_eq
  simp only [BitVec.extractLsb'_toNat, Machine.toNat_append_eq, Nat.shiftRight_eq_div_pow]
  omega

/-! ## Formats R, RI and MS: opcode, register, eight bits -/

@[simp] theorem opField_reg (op : Opcode) (a : BitVec 3) (x : BitVec 8) : opField (op ++ a ++ x) = op := by
  apply BitVec.eq_of_toNat_eq
  simp only [opField, BitVec.extractLsb'_toNat, Machine.toNat_append_eq, Nat.shiftRight_eq_div_pow]
  omega

@[simp] theorem regA_reg (op : Opcode) (a : BitVec 3) (x : BitVec 8) : regA (op ++ a ++ x) = Reg.ofBits a := by
  unfold regA
  congr 1
  apply BitVec.eq_of_toNat_eq
  simp only [BitVec.extractLsb'_toNat, Machine.toNat_append_eq, Nat.shiftRight_eq_div_pow]
  omega

@[simp] theorem imm8Field_reg (op : Opcode) (a : BitVec 3) (x : BitVec 8) : imm8Field (op ++ a ++ x) = x := by
  apply BitVec.eq_of_toNat_eq
  simp only [imm8Field, BitVec.extractLsb'_toNat, Machine.toNat_append_eq, Nat.shiftRight_eq_div_pow]
  omega

@[simp] theorem off8Field_reg (op : Opcode) (a : BitVec 3) (x : BitVec 8) : off8Field (op ++ a ++ x) = x.toInt :=
  congrArg BitVec.toInt (imm8Field_reg op a x)

/-! ## Format A: opcode, address, one bit; format N: opcode, eleven bits -/

@[simp] theorem opField_address (op : Opcode) (d : Addr) (x : BitVec 1) : opField (op ++ d ++ x) = op := by
  apply BitVec.eq_of_toNat_eq
  simp only [opField, BitVec.extractLsb'_toNat, Machine.toNat_append_eq, Nat.shiftRight_eq_div_pow]
  omega

@[simp] theorem addrField_address (op : Opcode) (d : Addr) (x : BitVec 1) : addrField (op ++ d ++ x) = d := by
  apply BitVec.eq_of_toNat_eq
  simp only [addrField, BitVec.extractLsb'_toNat, Machine.toNat_append_eq, Nat.shiftRight_eq_div_pow]
  omega

@[simp] theorem opField_bare (op : Opcode) (x : BitVec 11) : opField (op ++ x) = op := by
  apply BitVec.eq_of_toNat_eq
  simp only [opField, BitVec.extractLsb'_toNat, Machine.toNat_append_eq, Nat.shiftRight_eq_div_pow]
  omega

/-! ## The signed offsets -/

/-- An offset that fits the 5 bit field is read back as itself (R60). -/
theorem toInt_ofInt_off5 (off : Int) (h : fitsOff5 off = true) : (BitVec.ofInt 5 off).toInt = off := by
  simp only [fitsOff5, decide_eq_true_eq] at h
  rw [BitVec.toInt_ofInt, Int.bmod_eq_of_le (by omega) (by omega)]

/-- An offset that fits the 8 bit field is read back as itself (R60). -/
theorem toInt_ofInt_off8 (off : Int) (h : fitsOff8 off = true) : (BitVec.ofInt 8 off).toInt = off := by
  simp only [fitsOff8, decide_eq_true_eq] at h
  rw [BitVec.toInt_ofInt, Int.bmod_eq_of_le (by omega) (by omega)]

/-- Every value of the 5 bit field fits it. -/
theorem fitsOff5_toInt (x : BitVec 5) : fitsOff5 x.toInt = true := by
  have h1 := BitVec.le_toInt x
  have h2 := BitVec.toInt_lt (x := x)
  simp only [fitsOff5, decide_eq_true_eq]
  omega

/-- Every value of the 8 bit field fits it. -/
theorem fitsOff8_toInt (x : BitVec 8) : fitsOff8 x.toInt = true := by
  have h1 := BitVec.le_toInt x
  have h2 := BitVec.toInt_lt (x := x)
  simp only [fitsOff8, decide_eq_true_eq]
  omega

/-! ## A word is the concatenation of its fields -/

theorem word_eq_reg_reg (w : Word) :
    w = opField w ++ w.extractLsb' 8 3 ++ w.extractLsb' 5 3 ++ w.extractLsb' 0 5 := by
  apply BitVec.eq_of_toNat_eq
  have := w.isLt
  simp only [opField, BitVec.extractLsb'_toNat, Machine.toNat_append_eq, Nat.shiftRight_eq_div_pow]
  omega

theorem word_eq_reg (w : Word) : w = opField w ++ w.extractLsb' 8 3 ++ w.extractLsb' 0 8 := by
  apply BitVec.eq_of_toNat_eq
  have := w.isLt
  simp only [opField, BitVec.extractLsb'_toNat, Machine.toNat_append_eq, Nat.shiftRight_eq_div_pow]
  omega

theorem word_eq_address (w : Word) : w = opField w ++ w.extractLsb' 1 10 ++ w.extractLsb' 0 1 := by
  apply BitVec.eq_of_toNat_eq
  have := w.isLt
  simp only [opField, BitVec.extractLsb'_toNat, Machine.toNat_append_eq, Nat.shiftRight_eq_div_pow]
  omega

theorem word_eq_bare (w : Word) : w = opField w ++ w.extractLsb' 0 11 := by
  apply BitVec.eq_of_toNat_eq
  have := w.isLt
  simp only [opField, BitVec.extractLsb'_toNat, Machine.toNat_append_eq, Nat.shiftRight_eq_div_pow]
  omega

end Sys2Proof
end

