-- ==== Sys2Proof/Laws/Ops.lean ====
section
/-! SUPPORT. One lemma for each shared operation that says all it does: what it writes, and that it leaves everything else alone. -/

namespace Sys2Proof.Machine

theorem State.sameRegs_setReg (s : State) (a : Reg) (v : Word) : s.sameRegs (s.setReg a v) [a] :=
  fun r h => State.reg_setReg_of_ne s a r v (by simpa using h)

theorem State.sameCells_memWrite (s : State) (a : Addr) (v : Word) : s.sameCells (s.memWrite a v) [a] :=
  fun x h => State.memRead_memWrite_of_ne s a x v (by simpa using h)

theorem State.atNext_advance (s : State) : s.atNext s.advance := nextAddr_toNat s.pc

/-- `advance` moves pc to the next address and does nothing else. -/
theorem State.advance_spec (s : State) :
    s.atNext s.advance ∧ s.sameRegs s.advance [] ∧ s.sameFlags s.advance ∧ s.advance.sp = s.sp
      ∧ s.sameCells s.advance [] ∧ s.sameImage s.advance ∧ s.samePorts s.advance :=
  ⟨s.atNext_advance, fun _ _ => rfl, ⟨rfl, rfl⟩, rfl, fun _ _ => rfl, rfl, ⟨rfl, rfl, rfl⟩⟩

/-- `branch` moves pc to one of two addresses and does nothing else. -/
theorem State.branch_spec (s : State) (cond : Bool) (addr : Addr) :
    (s.branch cond addr).pc = (if cond then addr else nextAddr s.pc) ∧ s.sameRegs (s.branch cond addr) []
      ∧ s.sameFlags (s.branch cond addr) ∧ (s.branch cond addr).sp = s.sp ∧ s.sameCells (s.branch cond addr) []
      ∧ s.sameImage (s.branch cond addr) ∧ s.samePorts (s.branch cond addr) :=
  ⟨rfl, fun _ _ => rfl, ⟨rfl, rfl⟩, rfl, fun _ _ => rfl, rfl, ⟨rfl, rfl, rfl⟩⟩

/-- `pushWord` writes the cell at sp, decrements sp and does nothing else (spec/10_state.md R17). -/
theorem State.pushWord_spec (s : State) (v : Word) :
    (s.pushWord v).memRead s.sp = v ∧ (s.pushWord v).sp = prevAddr s.sp ∧ s.sameCells (s.pushWord v) [s.sp]
      ∧ s.sameRegs (s.pushWord v) [] ∧ s.sameFlags (s.pushWord v) ∧ (s.pushWord v).pc = s.pc
      ∧ s.sameImage (s.pushWord v) ∧ s.samePorts (s.pushWord v) :=
  ⟨s.memRead_memWrite_self s.sp v, rfl, s.sameCells_memWrite s.sp v, fun _ _ => rfl, ⟨rfl, rfl⟩, rfl, rfl, ⟨rfl, rfl, rfl⟩⟩

/-- `dropTop` increments sp and does nothing else (R17). -/
theorem State.dropTop_spec (s : State) :
    s.dropTop.sp = nextAddr s.sp ∧ s.sameCells s.dropTop [] ∧ s.sameRegs s.dropTop [] ∧ s.sameFlags s.dropTop
      ∧ s.dropTop.pc = s.pc ∧ s.sameImage s.dropTop ∧ s.samePorts s.dropTop :=
  ⟨rfl, fun _ _ => rfl, fun _ _ => rfl, ⟨rfl, rfl⟩, rfl, rfl, ⟨rfl, rfl, rfl⟩⟩

/-- `finishMove` writes register A, moves pc to the next address and does nothing else. -/
theorem State.finishMove_spec (s : State) (a : Reg) (v : Word) :
    (s.finishMove a v).reg a = v ∧ s.atNext (s.finishMove a v) ∧ s.sameRegs (s.finishMove a v) [a]
      ∧ s.sameFlags (s.finishMove a v) ∧ (s.finishMove a v).sp = s.sp ∧ s.sameCells (s.finishMove a v) []
      ∧ s.sameImage (s.finishMove a v) ∧ s.samePorts (s.finishMove a v) :=
  ⟨s.reg_setReg_self a v, s.atNext_advance, s.sameRegs_setReg a v, ⟨rfl, rfl⟩, rfl, fun _ _ => rfl, rfl, ⟨rfl, rfl, rfl⟩⟩

/-- `finishAlu` writes register A and both flags, moves pc to the next address and does nothing else. -/
theorem State.finishAlu_spec (s : State) (a : Reg) (v : Word) (c : Bool) :
    (s.finishAlu a v c).reg a = v ∧ (s.finishAlu a v c).c = c ∧ ((s.finishAlu a v c).z = true ↔ v = 0)
      ∧ s.atNext (s.finishAlu a v c) ∧ s.sameRegs (s.finishAlu a v c) [a] ∧ (s.finishAlu a v c).sp = s.sp
      ∧ s.sameCells (s.finishAlu a v c) [] ∧ s.sameImage (s.finishAlu a v c) ∧ s.samePorts (s.finishAlu a v c) :=
  ⟨s.reg_setReg_self a v, rfl, isZero_eq_true v, s.atNext_advance, s.sameRegs_setReg a v, rfl, fun _ _ => rfl, rfl,
    ⟨rfl, rfl, rfl⟩⟩

/-- `finishStore` writes one cell, moves pc to the next address and does nothing else. -/
theorem State.finishStore_spec (s : State) (ea : Addr) (a : Reg) :
    (s.finishStore ea a).memRead ea = s.reg a ∧ s.sameCells (s.finishStore ea a) [ea] ∧ s.atNext (s.finishStore ea a)
      ∧ s.sameRegs (s.finishStore ea a) [] ∧ s.sameFlags (s.finishStore ea a) ∧ (s.finishStore ea a).sp = s.sp
      ∧ s.sameImage (s.finishStore ea a) ∧ s.samePorts (s.finishStore ea a) :=
  ⟨s.memRead_memWrite_self ea (s.reg a), s.sameCells_memWrite ea (s.reg a), s.atNext_advance, fun _ _ => rfl, ⟨rfl, rfl⟩,
    rfl, rfl, ⟨rfl, rfl, rfl⟩⟩

/-- The effective address of a register offset form is the exact sum mod 2^10 (spec/20_memory.md R39). -/
theorem State.regAddr_toNat (s : State) (b : Reg) (off : Int) :
    ((s.regAddr b off).toNat : Int) = (((s.reg b).toNat % 1024 : Nat) + off) % 1024 := by
  rw [State.regAddr, effAddr_toNat, low10_toNat]

/-- The effective address of a stack offset form is the exact sum mod 2^10 (R39). -/
theorem State.spAddr_toNat (s : State) (off : Int) : ((s.spAddr off).toNat : Int) = ((s.sp.toNat : Int) + off) % 1024 :=
  effAddr_toNat s.sp off

/-- The stack after a push, seen from its top: the value pushed (R17). -/
theorem State.topWord_pushWord (s : State) (v : Word) : (s.pushWord v).topWord = v := by
  simp [State.topWord, State.pushWord]

end Sys2Proof.Machine
end

