-- ==== Sys2Proof/Laws/PerInstr.lean ====
section
/-! SUPPORT. The family OpcodeField: the word of an instruction carries, in bits 15:11, the opcode that the map of
spec/30_encoding.md R61 gives the instruction, whatever the operands. -/

namespace Sys2Proof.Laws.OpcodeField

/-- The number of an instruction in the opcode map (R61). -/
def opcode : Instr → Opcode
  | .nop => 0x00
  | .mv _ _ => 0x01
  | .mvh _ _ => 0x02
  | .mvl _ _ => 0x03
  | .ldSp _ _ => 0x04
  | .stSp _ _ => 0x05
  | .inPort _ => 0x06
  | .outPort _ => 0x07
  | .cmp _ _ => 0x08
  | .jmp _ => 0x09
  | .jc _ => 0x0A
  | .jnc _ => 0x0B
  | .jz _ => 0x0C
  | .jnz _ => 0x0D
  | .call _ => 0x0E
  | .ret => 0x0F
  | .push _ => 0x10
  | .pop _ => 0x11
  | .add _ _ => 0x12
  | .sub _ _ => 0x13
  | .and _ _ => 0x14
  | .or _ _ => 0x15
  | .not _ => 0x16
  | .xor _ _ => 0x17
  | .shr _ _ => 0x18
  | .shl _ _ => 0x19
  | .clr _ => 0x1A
  | .lspImm _ => 0x1B
  | .lspReg _ => 0x1C
  | .rsp _ => 0x1D
  | .ldReg _ _ _ => 0x1E
  | .stReg _ _ _ => 0x1F

/-- Bits 15:11 of the instruction's word are its opcode. -/
def Statement (i : Instr) : Prop := opField (encode i) = opcode i

theorem formatN_op (op : Opcode) : opField (formatN op) = op := opField_bare op _
theorem formatR_op (op : Opcode) (a : Reg) : opField (formatR op a) = op := opField_reg op _ _
theorem formatRR_op (op : Opcode) (a b : Reg) : opField (formatRR op a b) = op := opField_reg_reg op _ _ _
theorem formatRI_op (op : Opcode) (a : Reg) (imm : BitVec 8) : opField (formatRI op a imm) = op := opField_reg op _ _
theorem formatMR_op (op : Opcode) (a b : Reg) (off : Int) : opField (formatMR op a b off) = op := opField_reg_reg op _ _ _
theorem formatMS_op (op : Opcode) (a : Reg) (off : Int) : opField (formatMS op a off) = op := opField_reg op _ _
theorem formatA_op (op : Opcode) (d : Addr) : opField (formatA op d) = op := opField_address op _ _

theorem nop : Statement .nop := formatN_op _
theorem mv (a b : Reg) : Statement (.mv a b) := formatRR_op _ a b
theorem mvh (a : Reg) (imm : BitVec 8) : Statement (.mvh a imm) := formatRI_op _ a imm
theorem mvl (a : Reg) (imm : BitVec 8) : Statement (.mvl a imm) := formatRI_op _ a imm
theorem ldSp (a : Reg) (off : Int) : Statement (.ldSp a off) := formatMS_op _ a off
theorem stSp (a : Reg) (off : Int) : Statement (.stSp a off) := formatMS_op _ a off
theorem inPort (a : Reg) : Statement (.inPort a) := formatR_op _ a
theorem outPort (a : Reg) : Statement (.outPort a) := formatR_op _ a
theorem cmp (a b : Reg) : Statement (.cmp a b) := formatRR_op _ a b
theorem jmp (addr : Addr) : Statement (.jmp addr) := formatA_op _ addr
theorem jc (addr : Addr) : Statement (.jc addr) := formatA_op _ addr
theorem jnc (addr : Addr) : Statement (.jnc addr) := formatA_op _ addr
theorem jz (addr : Addr) : Statement (.jz addr) := formatA_op _ addr
theorem jnz (addr : Addr) : Statement (.jnz addr) := formatA_op _ addr
theorem call (addr : Addr) : Statement (.call addr) := formatA_op _ addr
theorem ret : Statement .ret := formatN_op _
theorem push (a : Reg) : Statement (.push a) := formatR_op _ a
theorem pop (a : Reg) : Statement (.pop a) := formatR_op _ a
theorem add (a b : Reg) : Statement (.add a b) := formatRR_op _ a b
theorem sub (a b : Reg) : Statement (.sub a b) := formatRR_op _ a b
theorem and (a b : Reg) : Statement (.and a b) := formatRR_op _ a b
theorem or (a b : Reg) : Statement (.or a b) := formatRR_op _ a b
theorem not (a : Reg) : Statement (.not a) := formatR_op _ a
theorem xor (a b : Reg) : Statement (.xor a b) := formatRR_op _ a b
theorem shr (a b : Reg) : Statement (.shr a b) := formatRR_op _ a b
theorem shl (a b : Reg) : Statement (.shl a b) := formatRR_op _ a b
theorem clr (a : Reg) : Statement (.clr a) := formatR_op _ a
theorem lspImm (addr : Addr) : Statement (.lspImm addr) := formatA_op _ addr
theorem lspReg (a : Reg) : Statement (.lspReg a) := formatR_op _ a
theorem rsp (a : Reg) : Statement (.rsp a) := formatR_op _ a
theorem ldReg (a b : Reg) (off : Int) : Statement (.ldReg a b off) := formatMR_op _ a b off
theorem stReg (a b : Reg) (off : Int) : Statement (.stReg a b off) := formatMR_op _ a b off

end Sys2Proof.Laws.OpcodeField
end

