-- ==== Sys2Proof/Tests/Slice0.lean ====
section
/-! SUPPORT. Tests. Words and outcomes come from spec/95_test_vectors.md (E, V and decode rows) and from the patterns of
spec/30_encoding.md, not from this model. -/

open Sys2Proof Sys2Proof.Machine

namespace Sys2Proof.Tests

/-! ## WellFormed: an ill-formed term for each check, and the ends of each range (spec/46_assembler.md R138) -/

theorem test_wf_off5_refuses_16 : (Instr.ldReg .r0 .r1 16).wf = false := by decide
theorem test_wf_off5_refuses_minus_17 : (Instr.stReg .r0 .r1 (-17)).wf = false := by decide
theorem test_wf_off5_ends : (Instr.ldReg .r0 .r1 15).wf = true ∧ (Instr.stReg .r0 .r1 (-16)).wf = true := by decide
theorem test_wf_off8_refuses_128 : (Instr.ldSp .r0 128).wf = false := by decide
theorem test_wf_off8_refuses_minus_129 : (Instr.stSp .r0 (-129)).wf = false := by decide
theorem test_wf_off8_ends : (Instr.ldSp .r0 127).wf = true ∧ (Instr.stSp .r0 (-128)).wf = true := by decide
theorem test_wf_imm8_refuses : fitsImm8 0x100 = false ∧ fitsImm8 (-1) = false ∧ fitsImm8 0xFF = true ∧ fitsImm8 0 = true := by
  decide
theorem test_wf_addr_refuses : fitsAddr 0x400 = false ∧ fitsAddr (-1) = false ∧ fitsAddr 0x3FF = true ∧ fitsAddr 0 = true := by
  decide

/-! ## Decoding: one word for every constructor, written out bit by bit -/

theorem test_decode_nop : decode 0b0000011111111111#16 = .nop := by decide
theorem test_decode_mv : decode 0b0000100000100000#16 = .mv .r0 .r1 := by decide
theorem test_decode_mvh : decode 0b0001000001010101#16 = .mvh .r0 0x55 := by decide
theorem test_decode_mvl : decode 0b0001111111111111#16 = .mvl .r7 0xFF := by decide
theorem test_decode_ldSp : decode 0b0010000011101100#16 = .ldSp .r0 (-20) := by decide
theorem test_decode_stSp : decode 0b0010111110000000#16 = .stSp .r7 (-128) := by decide
theorem test_decode_inPort : decode 0b0011000011111111#16 = .inPort .r0 := by decide
theorem test_decode_outPort : decode 0b0011110100000000#16 = .outPort .r5 := by decide
theorem test_decode_cmp : decode 0b0100000000100000#16 = .cmp .r0 .r1 := by decide
theorem test_decode_jmp : decode 0b0100111111111110#16 = .jmp 0x3FF := by decide
theorem test_decode_jc : decode 0b0101000000001010#16 = .jc 0x005 := by decide
theorem test_decode_jnc : decode 0b0101100000001010#16 = .jnc 0x005 := by decide
theorem test_decode_jz : decode 0b0110000000001010#16 = .jz 0x005 := by decide
theorem test_decode_jnz : decode 0b0110100000001010#16 = .jnz 0x005 := by decide
theorem test_decode_call : decode 0b0111000000000100#16 = .call 0x002 := by decide
theorem test_decode_ret : decode 0b0111111111111111#16 = .ret := by decide
theorem test_decode_push : decode 0b1000001100000000#16 = .push .r3 := by decide
theorem test_decode_pop : decode 0b1000101100000000#16 = .pop .r3 := by decide
theorem test_decode_add : decode 0b1001000000111111#16 = .add .r0 .r1 := by decide
theorem test_decode_sub : decode 0b1001100101000000#16 = .sub .r1 .r2 := by decide
theorem test_decode_and : decode 0b1010001001100000#16 = .and .r2 .r3 := by decide
theorem test_decode_or : decode 0b1010100000100000#16 = .or .r0 .r1 := by decide
theorem test_decode_not : decode 0b1011000000000000#16 = .not .r0 := by decide
theorem test_decode_xor : decode 0b1011101001100000#16 = .xor .r2 .r3 := by decide
theorem test_decode_shr : decode 0b1100001010000000#16 = .shr .r2 .r4 := by decide
theorem test_decode_shl : decode 0b1100101110000000#16 = .shl .r3 .r4 := by decide
theorem test_decode_clr : decode 0b1101000000000000#16 = .clr .r0 := by decide
theorem test_decode_lspImm : decode 0b1101100010100000#16 = .lspImm 0x050 := by decide
theorem test_decode_lspReg : decode 0b1110000000000000#16 = .lspReg .r0 := by decide
theorem test_decode_rsp : decode 0b1110110000000000#16 = .rsp .r4 := by decide
theorem test_decode_ldReg : decode 0b1111000000110000#16 = .ldReg .r0 .r1 (-16) := by decide
theorem test_decode_stReg : decode 0b1111111111111111#16 = .stReg .r7 .r7 (-1) := by decide

/-- Canonical words of spec/95_test_vectors.md section 2 (the encoder). -/
theorem test_encode_words :
    encode (.ldReg .r0 .r1 (-5)) = 0xF03B ∧ encode (.ldSp .r0 (-20)) = 0x20EC ∧ encode (.jmp 0x3FF) = 0x4FFE
      ∧ encode (.shl .r3 .r4) = 0xCB80 ∧ encode (.mvl .r7 0xFF) = 0x1FFF ∧ encode (.mv .r7 .r7) = 0x0FE0 := by decide

theorem test_table_word_add : decodeTableWord 16 0x9020 = some (.add .r0 .r1) := by decide

/-! ## One step, fetched and decoded: the vectors of spec/95_test_vectors.md section 3 -/

/-- A small state: every register and flag 0, pc 0x003, sp 0x3FF, nothing in memory. -/
def base : State :=
  { regs := Regs.zero, pc := 0x003, sp := 0x3FF, c := false, z := false, dmem := [], imem := [], output := [],
    inputScript := [], inputCount := 0 }

/-- `base` with r0 and r1. -/
def withRegs (x y : Word) : State := (base.setReg .r0 x).setReg .r1 y

/-- The state after the step that fetches the word `w`, if there is one. -/
def after (w : Nat) (s : State) : Option State :=
  match step (s.withFetchWord 16 w) with
  | .next t => some t
  | .fault _ => none
  | .refused _ => none

/-- What a test looks at after the step. -/
def sees {α : Type} (w : Nat) (s : State) (f : State → α) : Option α := (after w s).map f

theorem test_nop_advances : sees 0x0000 base (fun t => (t.pc, t.sp)) = some (0x004, 0x3FF) := by decide   -- V1
theorem test_nop_wraps : sees 0x0000 (base.setPc 0x3FF) (fun t => t.pc) = some 0x000 := by decide   -- V2
theorem test_ret_ignores_high_bits : sees 0x7800 ((base.setSp 0x3FE).memWrite 0x3FF 0xFC05) (fun t => (t.pc, t.sp)) = some (0x005, 0x3FF) := by decide   -- V4
theorem test_ret_wraps_sp : sees 0x7800 (base.memWrite 0x000 0x0123) (fun t => (t.pc, t.sp)) = some (0x123, 0x000) := by decide   -- V5
theorem test_push_at_old_sp : sees 0x8000 (withRegs 0x55AA 0) (fun t => (t.memRead 0x3FF, t.sp, t.pc)) = some (0x55AA, 0x3FE, 0x004) := by decide   -- V10
theorem test_push_wraps_sp : sees 0x8700 (base.setSp 0x000) (fun t => (t.memRead 0x000, t.sp)) = some (0x0000, 0x3FF) := by decide   -- V11
theorem test_pop_keeps_cell : sees 0x8800 ((base.setSp 0x3FE).memWrite 0x3FF 0x55AA) (fun t => (t.reg .r0, t.sp, t.memRead 0x3FF)) = some (0x55AA, 0x3FF, 0x55AA) := by decide   -- V12
theorem test_pop_wraps_sp : sees 0x8900 (base.memWrite 0x000 0xBEEF) (fun t => (t.reg .r1, t.sp)) = some (0xBEEF, 0x000) := by decide   -- V13
theorem test_in_takes_presented : sees 0x3000 { base with inputScript := [0x1234, 0x5678] } (fun t => (t.reg .r0, t.inputScript, t.z)) = some (0x1234, [0x5678], false) := by decide   -- V15
theorem test_out_appends : sees 0x3800 ((withRegs 0x55AA 0).portOut 0x1111) (fun t => (t.output, t.reg .r0)) = some ([0x1111, 0x55AA], 0x55AA) := by decide   -- V17
theorem test_clr_keeps_flags : sees 0xD500 ((base.setReg .r5 0xBEEF).setFlags true false) (fun t => (t.reg .r5, t.c, t.z)) = some (0x0000, true, false) := by decide   -- V18
theorem test_lspReg_drops_high_bits : sees 0xE000 (withRegs 0xFFFF 0) (fun t => t.sp) = some 0x3FF := by decide   -- V20
theorem test_lspReg_0x400 : sees 0xE000 (withRegs 0x0400 0) (fun t => t.sp) = some 0x000 := by decide   -- V21
theorem test_rsp_zero_extends : sees 0xEC00 ((base.setSp 0x3FE).setReg .r4 0xFFFF) (fun t => t.reg .r4) = some 0x03FE := by decide   -- V22
theorem test_not_inverts : sees 0xB000 (withRegs 0x00AA 0) (fun t => (t.reg .r0, t.c, t.z)) = some (0xFF55, false, false) := by decide   -- V23
theorem test_not_zero : sees 0xB000 ((withRegs 0xFFFF 0).setFlags true false) (fun t => (t.reg .r0, t.c, t.z)) = some (0x0000, false, true) := by decide   -- V24
theorem test_mv_copies : sees 0x0820 ((withRegs 0x1234 0x0055).setFlags true true) (fun t => (t.reg .r0, t.reg .r1, t.c, t.z)) = some (0x0055, 0x0055, true, true) := by decide   -- V30
theorem test_add_carry_zero : sees 0x9020 (withRegs 0xFFFF 0x0001) (fun t => (t.reg .r0, t.c, t.z)) = some (0x0000, true, true) := by decide   -- V32
theorem test_add_signed_overflow : sees 0x9020 (withRegs 0x7FFF 0x0001) (fun t => (t.reg .r0, t.c, t.z)) = some (0x8000, false, false) := by decide   -- V34
theorem test_sub_borrow : sees 0x9820 (withRegs 0x0001 0xFFFF) (fun t => (t.reg .r0, t.c, t.z)) = some (0x0002, true, false) := by decide   -- V43
theorem test_sub_same_register : sees 0x9800 (withRegs 0xABCD 0) (fun t => (t.reg .r0, t.c, t.z)) = some (0x0000, false, true) := by decide   -- V44
theorem test_cmp_minus_one_one : sees 0x4020 (withRegs 0xFFFF 0x0001) (fun t => (t.reg .r0, t.c, t.z)) = some (0xFFFF, true, false) := by decide   -- V49
theorem test_cmp_one_minus_one : sees 0x4020 (withRegs 0x0001 0xFFFF) (fun t => (t.reg .r0, t.c, t.z)) = some (0x0001, false, false) := by decide   -- V48
theorem test_and_zero : sees 0xA020 ((withRegs 0xFF00 0x00FF).setFlags true false) (fun t => (t.reg .r0, t.c, t.z)) = some (0x0000, false, true) := by decide   -- V54
theorem test_or_combines : sees 0xA820 (withRegs 0x5500 0x00AA) (fun t => (t.reg .r0, t.c, t.z)) = some (0x55AA, false, false) := by decide   -- V56
theorem test_xor_same_register : sees 0xB800 (withRegs 0x1234 0) (fun t => (t.reg .r0, t.c, t.z)) = some (0x0000, false, true) := by decide   -- V59
theorem test_shr_by_15 : sees 0xC020 (withRegs 0x8000 0x000F) (fun t => (t.reg .r0, t.c, t.z)) = some (0x0001, false, false) := by decide   -- V61
theorem test_shr_by_32768 : sees 0xC020 (withRegs 0xFFFF 0x8000) (fun t => (t.reg .r0, t.c, t.z)) = some (0x0000, false, true) := by decide   -- V64
theorem test_shl_lost_bit : sees 0xC820 (withRegs 0x8000 0x0001) (fun t => (t.reg .r0, t.c, t.z)) = some (0x0000, false, true) := by decide   -- V67
theorem test_shl_same_register : sees 0xC800 (withRegs 0x0003 0) (fun t => (t.reg .r0, t.c, t.z)) = some (0x0018, false, false) := by decide   -- V70
theorem test_mvh_keeps_low : sees 0x1300 (base.setReg .r3 0x1234) (fun t => t.reg .r3) = some 0x0034 := by decide   -- V83
theorem test_mvl_no_sign_extension : sees 0x1980 (base.setReg .r1 0xFFFF) (fun t => t.reg .r1) = some 0xFF80 := by decide   -- V86
theorem test_ldReg_wraps : sees 0xF020 ((withRegs 0 0xFC10).memWrite 0x010 0x2222) (fun t => t.reg .r0) = some 0x2222 := by decide   -- V90 and V93
theorem test_ldReg_old_base : sees 0xF120 ((withRegs 0 0x0020).memWrite 0x020 0x0040) (fun t => t.reg .r1) = some 0x0040 := by decide   -- V96
theorem test_stReg_negative : sees 0xF83B (withRegs 0xAA55 0x0010) (fun t => (t.memRead 0x00B, t.sp)) = some (0xAA55, 0x3FF) := by decide   -- V98
theorem test_stReg_same_register : sees 0xFFFF (base.setReg .r7 0x03FF) (fun t => t.memRead 0x3FE) = some 0x03FF := by decide   -- V99
theorem test_ldSp_negative : sees 0x20EC ((base.setSp 0x050).memWrite 0x03C 0x0003) (fun t => (t.reg .r0, t.sp)) = some (0x0003, 0x050) := by decide   -- V104
theorem test_stSp_wraps : sees 0x2880 ((withRegs 0xBEEF 0).setSp 0x050) (fun t => (t.memRead 0x3D0, t.sp)) = some (0xBEEF, 0x050) := by decide   -- V107
theorem test_call_pushes_next : sees 0x7004 (base.setPc 0x000) (fun t => (t.memRead 0x3FF, t.sp, t.pc)) = some (0x0001, 0x3FE, 0x002) := by decide   -- V110
theorem test_call_wraps : sees 0x7020 ((base.setPc 0x3FF).setSp 0x100) (fun t => (t.memRead 0x100, t.sp, t.pc)) = some (0x0000, 0x0FF, 0x010) := by decide   -- V111
theorem test_jmp_to_self : sees 0x4802 (base.setPc 0x001) (fun t => t.pc) = some 0x001 := by decide   -- V113
theorem test_jc_taken : sees 0x500A (base.setFlags true false) (fun t => t.pc) = some 0x005 := by decide   -- V115
theorem test_jc_not_taken : sees 0x500A (base.setFlags false true) (fun t => t.pc) = some 0x004 := by decide   -- V116
theorem test_jnc_taken : sees 0x580A (base.setFlags false true) (fun t => t.pc) = some 0x005 := by decide   -- V117
theorem test_jnc_not_taken : sees 0x580A (base.setFlags true false) (fun t => t.pc) = some 0x004 := by decide   -- V118
theorem test_jz_taken : sees 0x600A ((base.setPc 0x007).setFlags false true) (fun t => t.pc) = some 0x005 := by decide   -- V119
theorem test_jz_not_taken : sees 0x600A ((base.setPc 0x007).setFlags true false) (fun t => t.pc) = some 0x008 := by decide   -- V120
theorem test_jnz_taken : sees 0x680A ((base.setPc 0x007).setFlags true false) (fun t => t.pc) = some 0x005 := by decide   -- V121
theorem test_jnz_wraps : sees 0x680A ((base.setPc 0x3FF).setFlags false true) (fun t => t.pc) = some 0x000 := by decide   -- V123
theorem test_lspImm_sets_sp : sees 0xD8A0 base (fun t => (t.sp, t.pc)) = some (0x050, 0x004) := by decide   -- V125

/-- V130, V134: a cell that nothing has written gives its unknown initial value. -/
theorem test_load_of_unwritten_cell : sees 0xF020 base (fun t => t.reg .r0) = some (Config.initRam 0) := rfl

/-- V133: the first jz after reset goes where RESET_Z says, which nothing knows. -/
theorem test_jz_after_reset :
    sees 0x600A State.reset (fun t => t.pc) = some (if Config.resetZ then 0x005 else 0x001) := rfl

/-- Without a script, `in` gives the free value of its number. -/
theorem test_in_free : sees 0x3000 base (fun t => (t.reg .r0, t.inputCount)) = some (Config.input 0, 1) := rfl

theorem test_reset_fetch_is_refused : step State.reset = .refused (.fetchOutsideImage 0x000) := rfl

/-! ## The assembler: the vectors of spec/95_test_vectors.md section 5 and the manual's programs -/

/-- The image of a source text, if it is not refused, with STRING_PACKING unset. -/
def image (source : String) : Option Memory :=
  match assembleText none source with
  | .ok m => some m
  | .error _ => none

/-- Why a source text is refused, if it is. -/
def refusal (source : String) : Option AsmError :=
  match assembleText none source with
  | .ok _ => none
  | .error e => some e

theorem test_asm_call_example :
    image "call myfunc\ndone: jmp done   # stop\n\nmyfunc: add r0, r1\n  ret"
      = some [(0, 0x7004), (1, 0x4802), (2, 0x9020), (3, 0x7800)] := by decide
theorem test_asm_offsets :
    image "ld r0, [r1-5]\nld r0, [sp-20]\nst r7, [sp]\nlsp r3\nlsp 0x003"
      = some [(0, 0xF03B), (1, 0x20EC), (2, 0x2F00), (3, 0xE300), (4, 0xD806)] := by decide
theorem test_asm_resv : image ".org 0x100\n.resv 25\n.resv tagname 25\nnop" = some [(0x132, 0x0000)] := by decide
theorem test_asm_resv_tag : image ".org 0x100\n.resv 25\n.resv tagname 25\njmp tagname" = some [(0x132, 0x4A32)] := by decide
theorem test_asm_ldtag :
    image ".org 0x132\nmytag: nop\n.org 0x000\n.ldtag r0, mytag"
      = some [(0, 0x1001), (1, 0x1832), (0x132, 0x0000)] := by decide
theorem test_asm_org_end : image ".org 0x3FF\nnop" = some [(0x3FF, 0x0000)] := by decide
/-- The location counter after 0x3FF is 0x000 (spec/46_assembler.md R142, spec/00_scope.md R7). -/
theorem test_asm_location_wraps : image ".org 0x3FF\nnop\nlast: jmp last" = some [(0, 0x4800), (0x3FF, 0x0000)] := by decide
theorem test_asm_wrapped_overlap : refusal "nop\n.org 0x3FF\nnop\nnop" = some (.addressTaken 0x000) := by decide
/-- "The image does not define the cells of the gap" (spec/46_assembler.md R146); that such a text is refused is log 30. -/
theorem test_asm_org_into_gap : refusal ".resv 4\nnop\n.org 3\nnop" = some (.gapDefined 0x003) := by decide
theorem test_asm_gap_over_statement : refusal ".org 1\nnop\n.org 0x3FF\n.resv 3" = some (.gapDefined 0x001) := by decide
theorem test_asm_beside_gap : image ".resv 4\nnop\n.org 0x3FF\nnop" = some [(4, 0x0000), (0x3FF, 0x0000)] := by decide
/-- A tag may precede a directive (spec/46_assembler.md R135); its address on an `.org` line is log 31. -/
theorem test_asm_tag_before_org : image "nop\na: .org 0x100\njmp a" = some [(0, 0x0000), (0x100, 0x4802)] := by decide
/-- The model's choice of log 29. -/
theorem test_asm_tag_names : image "R0: jmp add\nadd: jmp R0\n_a.1: jmp _a.1"
    = some [(0, 0x4802), (1, 0x4800), (2, 0x4804)] := by decide
theorem test_asm_same_address : refusal "nop\n.org 0\nnop" = some (.addressTaken 0) := by decide
theorem test_asm_imm_range : refusal "mvl r0, 0x100" = some (.numberOutOfRange 0x100) := by decide
theorem test_asm_off_range : refusal "ld r0, [r1+16]" = some (.numberOutOfRange 16) := by decide
theorem test_asm_string : refusal ".string s \"Hi # there\"" = some .stringPackingUnset := by decide
/-- The model's choices of log 31. -/
theorem test_asm_text_forms : image "a : ld r0,[ r1 + 5 ]\n\tmvl r0 , -0\r\n.resv -0\ng:.resv 0\nmvl r0,0xaA\njmp g"
    = some [(0, 0xF025), (1, 0x1800), (2, 0x18AA), (3, 0x4804)] := by decide

/-- The image of a source text under a layout of strings, the characters' codes as bytes. -/
def imageWith (layout : Config.CellLayout) (source : String) : Option Memory :=
  match assembleText (some ⟨fun t => t.map fun ch => BitVec.ofNat 8 ch.toNat, layout⟩) source with
  | .ok m => some m
  | .error _ => none

/-- "followed by a null byte" (spec/46_assembler.md R144). -/
theorem test_asm_string_one_per_cell :
    imageWith (.onePerCell false 0x00) ".string s \"Hi\"\njmp s"
      = some [(0, 0x0048), (1, 0x0069), (2, 0x0000), (3, 0x4800)] := by decide
theorem test_asm_string_two_per_cell :
    imageWith (.twoPerCell true 0xFF) ".string s \"Hi\"\njmp s" = some [(0, 0x4869), (1, 0x00FF), (2, 0x4800)] := by decide
/-- The model's choice of log 31. -/
theorem test_asm_hash_in_string :
    imageWith (.onePerCell false 0x00) ".string s\"#\" # comment" = some [(0, 0x0023), (1, 0x0000)] := by decide
theorem test_asm_undefined_tag : refusal "jmp nowhere" = some (.undefinedTag "nowhere") := by decide

/-! ## Safety -/

theorem test_atEnd : ((base.setPc 0x001).withFetchWord 16 0x4802).atEnd = true := by decide
theorem test_not_atEnd : ((base.setPc 0x002).withFetchWord 16 0x4802).atEnd = false := by decide
theorem test_cautious_add : ((withRegs 1 2).withFetchWord 16 0x9020).cautious = true := by decide
theorem test_not_cautious_shift : ((withRegs 1 16).withFetchWord 16 0xC020).cautious = false := by decide

/-! ## Witnesses: a state and operands that meet the hypotheses of each statement that has some -/

/-- A state whose image holds `done: jmp done` at its pc and whose data space holds a cell. -/
def ended : State := ((base.setPc 0x001).memWrite 0x3FF 0x0001).withFetchWord 16 0x4802

/-- EncodedInstructionDecodesBack, StraightLineProgramIsPlacedInOrder. -/
theorem witness_wf : (Instr.ldReg .r0 .r1 (-16)).wf = true ∧ (Instr.stSp .r7 127).wf = true ∧ Instr.nop.wf = true := by decide
theorem witness_straightLine :
    (∀ i ∈ [Instr.ldReg .r0 .r1 15, .nop], i.wf = true) ∧ [Instr.ldReg .r0 .r1 15, .nop].length ≤ 1024 := by decide
/-- ResetMemoriesAreCanonical. -/
theorem witness_canonical_image : Memory.wf [(0x000, 0x7004), (0x3FF, 0x0000)] = true := by decide
/-- StepRunsTheDecodedInstruction, EveryDefinedFetchCompletes. -/
theorem witness_fetch : ended.fetchAt ended.pc = some 0x4802 ∧ (ended.fetchAt ended.pc).isSome = true := by decide
/-- OnlyAFetchOutsideTheImageIsRefused: both clauses. -/
theorem witness_no_fetch :
    State.reset.fetchAt State.reset.pc = none ∧ step State.reset = .refused (.fetchOutsideImage 0x000) := ⟨rfl, rfl⟩
/-- EveryStepKeepsMemoriesCanonical, EndOfRunChangesNothing. -/
theorem witness_step : ended.wf = true ∧ ended.atEnd = true ∧ step ended = .next ended := ⟨by decide, by decide, rfl⟩
/-- The statements about every instruction whose hypothesis is that exec answers a next state: OnlyStPushAndCallChangeTheDataSpace,
FlagsAfterEveryInstruction, OnlyConditionalJumpsReadFlags, ProgramCounterAfterEveryInstruction,
StackPointerAfterEveryInstruction, OnlyRegisterAIsWritten, PortsAfterEveryInstruction, NoInstructionReadsTheImage. -/
theorem witness_every_instruction : ∃ t, exec (.add .r0 .r1) (withRegs 0xFFFF 0x0001) = .next t := ⟨_, rfl⟩
/-- Each clause of OnlyConditionalJumpsReadFlags, ProgramCounterAfterEveryInstruction and the like: an instruction of each kind. -/
theorem witness_jc : (∃ t, exec (.jc 0x3FF) (base.setFlags true false) = .next t) ∧ (base.setFlags true false).c = true ∧ base.c = false :=
  ⟨⟨_, rfl⟩, rfl, rfl⟩
theorem witness_jz : (∃ t, exec (.jz 0x000) (base.setFlags false true) = .next t) ∧ (base.setFlags false true).z = true ∧ base.z = false :=
  ⟨⟨_, rfl⟩, rfl, rfl⟩
theorem witness_jnc : ∃ t, exec (.jnc 0x3FF) base = .next t := ⟨_, rfl⟩
theorem witness_jnz : ∃ t, exec (.jnz 0x000) base = .next t := ⟨_, rfl⟩
theorem witness_jmp_call_ret :
    (∃ t, exec (.jmp 0x3FF) base = .next t) ∧ (∃ t, exec (.call 0x000) base = .next t) ∧ ∃ t, exec .ret base = .next t :=
  ⟨⟨_, rfl⟩, ⟨_, rfl⟩, ⟨_, rfl⟩⟩
theorem witness_push_pop :
    (∃ t, exec (.push .r0) (base.setSp 0x000) = .next t) ∧ ∃ t, exec (.pop .r7) base = .next t := ⟨⟨_, rfl⟩, ⟨_, rfl⟩⟩
theorem witness_stores :
    (∃ t, exec (.stReg .r0 .r1 15) (withRegs 1 0x3FF) = .next t) ∧ ∃ t, exec (.stSp .r0 (-128)) base = .next t :=
  ⟨⟨_, rfl⟩, ⟨_, rfl⟩⟩
theorem witness_ports :
    (∃ t, exec (.inPort .r0) base = .next t) ∧ ∃ t, exec (.outPort .r0) base = .next t := ⟨⟨_, rfl⟩, ⟨_, rfl⟩⟩
/-- CmpCarryIsSubBorrowExactlyOnEqualSigns: operands whose sign bits differ, and operands whose sign bits are equal. -/
theorem witness_cmp_sub :
    (∃ t, exec (.cmp .r0 .r1) (withRegs 0x8000 0x7FFF) = .next t) ∧ ∃ u, exec (.sub .r0 .r1) (withRegs 0x8000 0x7FFF) = .next u :=
  ⟨⟨_, rfl⟩, ⟨_, rfl⟩⟩
theorem witness_cmp_sub_equal_signs :
    (∃ t, exec (.cmp .r0 .r1) (withRegs 3 5) = .next t) ∧ ∃ u, exec (.sub .r0 .r1) (withRegs 3 5) = .next u :=
  ⟨⟨_, rfl⟩, ⟨_, rfl⟩⟩
/-- RetAfterCallResumes: the state after the call itself, at the ends of the address range. -/
theorem witness_call_ret :
    ∃ t v, exec (.call 0x010) ((base.setPc 0x3FF).setSp 0x000) = .next t ∧ t.sp = t.sp
      ∧ t.memRead 0x000 = t.memRead 0x000 ∧ exec .ret t = .next v := ⟨_, _, rfl, rfl, rfl, rfl⟩
/-- PopAfterPushCopies. -/
theorem witness_pop_after_push : ∃ t u, exec (.push .r2) base = .next t ∧ exec (.pop .r3) t = .next u := ⟨_, _, rfl, rfl⟩
/-- LspAfterRspKeepsSp. -/
theorem witness_lsp_after_rsp : ∃ t u, exec (.rsp .r0) base = .next t ∧ exec (.lspReg .r0) t = .next u := ⟨_, _, rfl, rfl⟩
/-- AssembledImagesAreCanonical. -/
theorem witness_assembled : assemble none [⟨some "done", .instr (.address .jmp (.tag "done"))⟩] = .ok [(0, 0x4800)] := by rfl

end Sys2Proof.Tests
end

section
/-! The obligations of spec/10_state.md R10 and R26. The data space is settled from two lemmas about `exec`: an instruction that
writes no cell leaves both memories as data, and one that writes a cell leaves every other cell and the image. -/

open Sys2Proof Sys2Proof.Machine

namespace Sys2Proof.Proofs

/-! ## Registers (R10) -/

/-- Settles O5, from the rules for a register read after a register write. -/
theorem registerFieldsNameEightRegisters : Obligations.RegisterFieldsNameEightRegisters := by
  unfold Obligations.RegisterFieldsNameEightRegisters
  exact ⟨by decide, Reg.ofBits_toBits, fun s r v => ⟨s.reg_setReg_self r v, s.sameRegs_setReg r v⟩⟩

/-! ## The two memory spaces (R26) -/

section
variable {i : Instr} {s t : State}

/-- An instruction that writes no cell leaves both memories alone: its meaning is made of updates of the other fields. -/
theorem exec_memories_of_cellWritten_none (h : exec i s = .next t) (hw : s.cellWritten i = none) :
    t.dmem = s.dmem ∧ t.imem = s.imem := by
  cases i with
  | stReg | stSp | push | call => cases hw
  | _ => cases h; exact ⟨rfl, rfl⟩

/-- An instruction that writes a cell leaves every other cell and the image alone. -/
theorem exec_sameCells_of_cellWritten_some {a : Addr} (h : exec i s = .next t) (hw : s.cellWritten i = some a) :
    s.sameCells t [a] ∧ s.sameImage t := by
  cases i with
  | stReg r b off =>
    cases hw; cases h
    obtain ⟨-, hcells, -, -, -, -, himage, -⟩ := s.finishStore_spec (s.regAddr b off) r
    exact ⟨hcells, himage⟩
  | stSp r off =>
    cases hw; cases h
    obtain ⟨-, hcells, -, -, -, -, himage, -⟩ := s.finishStore_spec (s.spAddr off) r
    exact ⟨hcells, himage⟩
  | push r =>
    cases hw; cases h
    obtain ⟨-, -, hcells, -, -, -, himage, -⟩ := s.pushWord_spec (s.reg r)
    exact ⟨hcells, himage⟩
  | call addr =>
    cases hw; cases h
    obtain ⟨-, -, hcells, -, -, -, himage, -⟩ := s.pushWord_spec (zext10 (nextAddr s.pc))
    exact ⟨hcells, himage⟩
  | _ => cases hw

/-- No instruction changes the instruction space. -/
theorem exec_sameImage (h : exec i s = .next t) : s.sameImage t := by
  cases hw : s.cellWritten i with
  | none => exact (exec_memories_of_cellWritten_none h hw).2
  | some a => exact (exec_sameCells_of_cellWritten_some h hw).2

/-- A cell that the instruction does not write reads as it did. -/
theorem exec_memRead_of_cellWritten_ne {x : Addr} (h : exec i s = .next t) (hx : s.cellWritten i ≠ some x) :
    t.memRead x = s.memRead x := by
  cases hw : s.cellWritten i with
  | none => simp only [State.memRead, (exec_memories_of_cellWritten_none h hw).1]
  | some a =>
    have hne : x ≠ a := fun heq => hx (heq ▸ hw)
    exact (exec_sameCells_of_cellWritten_some h hw).1 x (by simpa using hne)

end

/-- Settles O12: the frame is that of `exec` above, and the cell written holds what the shared operation stored there. -/
theorem onlyStPushAndCallChangeTheDataSpace : Obligations.OnlyStPushAndCallChangeTheDataSpace := by
  unfold Obligations.OnlyStPushAndCallChangeTheDataSpace
  intro i s t h
  refine ⟨fun x hx => exec_memRead_of_cellWritten_ne h hx, exec_sameImage h, ?_⟩
  cases i with
  | stReg a b off => cases h; exact ⟨rfl, (s.finishStore_spec (s.regAddr b off) a).1⟩
  | stSp a off => cases h; exact ⟨rfl, (s.finishStore_spec (s.spAddr off) a).1⟩
  | push a => cases h; exact ⟨rfl, (s.pushWord_spec (s.reg a)).1⟩
  | _ => rfl

end Sys2Proof.Proofs
end

section
/-! The obligation of spec/40_no_argument.md R70. The format N words are settled from the opcode alone, and the effect of `nop`
from the rule for `advance`. -/

open Sys2Proof Sys2Proof.Machine Sys2Proof.Layout

namespace Sys2Proof.Proofs

/-! ## Format N (R53) -/

/-- The canonical word of format N as a number: the opcode above eleven zero bits. -/
theorem formatN_toNat (op : Opcode) : (formatN op).toNat = op.toNat * 2048 := by
  calc (formatN op).toNat = op.toNat * 2 ^ 11 + (0#11).toNat := toNat_append_eq op 0#11
    _ = op.toNat * 2048 := by simp

/-- An instruction that its opcode alone selects, and whose word is the format N word of that opcode, has layout N. -/
theorem isN_of_opField {op : Opcode} {i : Instr} (hdecode : ∀ w : Word, opField w = op → decode w = i)
    (hencode : encode i = formatN op) : isN op i :=
  ⟨fun x => hdecode (op ++ x) (opField_bare op x), hencode ▸ formatN_toNat op⟩

/-! ## nop (R70) -/

theorem decode_eq_nop_of_opField (w : Word) (h : opField w = 0b00000#5) : decode w = .nop := by
  simp only [decode, h]

theorem exec_nop (s : State) : exec .nop s = .next s.advance := rfl

/-- Settles O21: layout N from the opcode, and the effect of `exec` on `nop` is `advance`, whose rule is the whole frame. -/
theorem nopAdvancesOnly : Obligations.NopAdvancesOnly := by
  unfold Obligations.NopAdvancesOnly
  exact ⟨isN_of_opField decode_eq_nop_of_opField rfl, fun s => ⟨s.advance, exec_nop s, s.advance_spec⟩⟩

end Sys2Proof.Proofs
end

section
/-! The obligations of spec/41_register.md R75, R76, R79 and R80: push, pop, clr and the register form of lsp. The format R words
are settled from the opcode and register A, and each effect from the rules of the shared operations its meaning is made of; where
it is made of two, their frames compose. -/

open Sys2Proof Sys2Proof.Machine Sys2Proof.Layout

/-! ## Frames of two operations, one after the other -/

namespace Sys2Proof.Machine

section
variable {s t u : State}

theorem State.sameRegs.trans {l m : List Reg} (hst : s.sameRegs t l) (htu : t.sameRegs u m) : s.sameRegs u (l ++ m) := by
  intro r hr
  obtain ⟨hl, hm⟩ : r ∉ l ∧ r ∉ m := by simpa using hr
  exact (htu r hm).trans (hst r hl)

theorem State.sameCells.trans {l m : List Addr} (hst : s.sameCells t l) (htu : t.sameCells u m) : s.sameCells u (l ++ m) := by
  intro x hx
  obtain ⟨hl, hm⟩ : x ∉ l ∧ x ∉ m := by simpa using hx
  exact (htu x hm).trans (hst x hl)

theorem State.sameFlags.trans (hst : s.sameFlags t) (htu : t.sameFlags u) : s.sameFlags u :=
  ⟨htu.1.trans hst.1, htu.2.trans hst.2⟩

theorem State.sameImage.trans (hst : s.sameImage t) (htu : t.sameImage u) : s.sameImage u := Eq.trans htu hst

theorem State.samePorts.trans (hst : s.samePorts t) (htu : t.samePorts u) : s.samePorts u := by
  obtain ⟨hout, hscript, hcount⟩ := hst
  obtain ⟨hout', hscript', hcount'⟩ := htu
  exact ⟨hout'.trans hout, hscript'.trans hscript, hcount'.trans hcount⟩

/-- The increment may be counted from any state with the same pc. -/
theorem State.atNext_of_pc_eq (hpc : t.pc = s.pc) (h : t.atNext u) : s.atNext u := by
  rwa [State.atNext, ← hpc]

end

/-- `setSp` sets sp and does nothing else. -/
theorem State.setSp_spec (s : State) (a : Addr) :
    (s.setSp a).sp = a ∧ s.sameCells (s.setSp a) [] ∧ s.sameRegs (s.setSp a) [] ∧ s.sameFlags (s.setSp a)
      ∧ (s.setSp a).pc = s.pc ∧ s.sameImage (s.setSp a) ∧ s.samePorts (s.setSp a) :=
  ⟨s.setSp_sp a, fun x _ => s.setSp_memRead a x, fun q _ => s.setSp_reg a q, ⟨s.setSp_c a, s.setSp_z a⟩, s.setSp_pc a,
    s.setSp_imem a, ⟨s.setSp_output a, s.setSp_inputScript a, s.setSp_inputCount a⟩⟩

end Sys2Proof.Machine

namespace Sys2Proof.Proofs

/-! ## Format R (R54) -/

/-- The canonical word of format R as a number: opcode, register A, eight zero bits. -/
theorem formatR_toNat (op : Opcode) (a : Reg) : (formatR op a).toNat = op.toNat * 2048 + a.toBits.toNat * 256 := by
  calc (formatR op a).toNat = (op ++ a.toBits).toNat * 2 ^ 8 + (0#8).toNat := toNat_append_eq (op ++ a.toBits) 0#8
    _ = (op.toNat * 2 ^ 3 + a.toBits.toNat) * 2 ^ 8 + (0#8).toNat := by rw [toNat_append_eq op a.toBits]
    _ = op.toNat * 2048 + a.toBits.toNat * 256 := by simp only [BitVec.toNat_ofNat]; omega

/-- Instructions that the opcode and register A select, and whose words are the format R words of that opcode, have layout R. -/
theorem isR_of_opField {op : Opcode} {mk : Reg → Instr} (hdecode : ∀ w : Word, opField w = op → decode w = mk (regA w))
    (hencode : ∀ a, encode (mk a) = formatR op a) : isR op mk := by
  refine ⟨fun a x => ?_, fun a => ?_⟩
  · rw [hdecode _ (opField_reg op a.toBits x), regA_reg, Reg.ofBits_toBits]
  · rw [hencode, formatR_toNat]

/-! ## push (R75) -/

theorem decode_eq_push_of_opField (w : Word) (h : opField w = 0b10000#5) : decode w = .push (regA w) := by
  simp only [decode, h]

theorem exec_push (a : Reg) (s : State) : exec (.push a) s = .next (s.pushWord (s.reg a)).advance := rfl

/-- Settles O23: the cell and sp are those of `pushWord`, pc is that of `advance`, and the frames of the two compose. -/
theorem pushStoresAtSpThenDecrements : Obligations.PushStoresAtSpThenDecrements := by
  unfold Obligations.PushStoresAtSpThenDecrements
  refine ⟨isR_of_opField decode_eq_push_of_opField fun _ => rfl, fun a s => ⟨_, exec_push a s, ?_⟩⟩
  obtain ⟨hcell, hsp, hcells, hregs, hflags, hpc, himage, hports⟩ := s.pushWord_spec (s.reg a)
  obtain ⟨hnext, hregs', hflags', hsp', hcells', himage', hports'⟩ := (s.pushWord (s.reg a)).advance_spec
  have hkept := hcells' s.sp (by simp)
  exact ⟨hkept.trans hcell, (hsp'.trans hsp).trans (prevAddr_eq_sub_one s.sp), State.atNext_of_pc_eq hpc hnext,
    hcells.trans hcells', hregs.trans hregs', hflags.trans hflags', himage.trans himage', hports.trans hports'⟩

/-! ## pop (R76) -/

theorem decode_eq_pop_of_opField (w : Word) (h : opField w = 0b10001#5) : decode w = .pop (regA w) := by
  simp only [decode, h]

theorem exec_pop (a : Reg) (s : State) : exec (.pop a) s = .next (s.dropTop.finishMove a s.topWord) := rfl

/-- The top of the stack is the cell at sp + 1 (spec/00_scope.md R9). -/
theorem topWord_eq_memRead (s : State) : s.topWord = s.memRead (s.sp + 1) := by
  rw [State.topWord, nextAddr_eq_add_one]

/-- Settles O24: sp is that of `dropTop`, register A and pc are those of `finishMove`, and the frames of the two compose; neither
writes a cell. -/
theorem popLoadsTopThenIncrements : Obligations.PopLoadsTopThenIncrements := by
  unfold Obligations.PopLoadsTopThenIncrements
  refine ⟨isR_of_opField decode_eq_pop_of_opField fun _ => rfl, fun a s => ⟨_, exec_pop a s, ?_⟩⟩
  obtain ⟨hsp, hcells, hregs, hflags, hpc, himage, hports⟩ := s.dropTop_spec
  obtain ⟨hreg, hnext, hregs', hflags', hsp', hcells', himage', hports'⟩ := s.dropTop.finishMove_spec a s.topWord
  exact ⟨hreg.trans (topWord_eq_memRead s), (hsp'.trans hsp).trans (nextAddr_eq_add_one s.sp),
    State.atNext_of_pc_eq hpc hnext, hregs.trans hregs', hflags.trans hflags', hcells.trans hcells', himage.trans himage',
    hports.trans hports'⟩

/-! ## clr (R79) -/

theorem decode_eq_clr_of_opField (w : Word) (h : opField w = 0b11010#5) : decode w = .clr (regA w) := by
  simp only [decode, h]

theorem exec_clr (a : Reg) (s : State) : exec (.clr a) s = .next (s.finishMove a 0) := rfl

/-- Settles O27: layout R from the opcode, and the effect is `finishMove` with 0, whose rule is the whole frame, the flags among
it. -/
theorem clrZeroesWithoutFlags : Obligations.ClrZeroesWithoutFlags := by
  unfold Obligations.ClrZeroesWithoutFlags
  exact ⟨isR_of_opField decode_eq_clr_of_opField fun _ => rfl, fun a s => ⟨_, exec_clr a s, s.finishMove_spec a 0⟩⟩

/-! ## lsp, register form (R80) -/

theorem decode_eq_lspReg_of_opField (w : Word) (h : opField w = 0b11100#5) : decode w = .lspReg (regA w) := by
  simp only [decode, h]

theorem exec_lspReg (a : Reg) (s : State) : exec (.lspReg a) s = .next (s.setSp (low10 (s.reg a))).advance := rfl

/-- Settles O28: sp is that of `setSp`, the register mod 2^10, pc is that of `advance`, and the frames of the two compose. -/
theorem lspRegisterTakesLowTenBits : Obligations.LspRegisterTakesLowTenBits := by
  unfold Obligations.LspRegisterTakesLowTenBits
  refine ⟨isR_of_opField decode_eq_lspReg_of_opField fun _ => rfl, fun a s => ⟨_, exec_lspReg a s, ?_⟩⟩
  obtain ⟨hsp, hcells, hregs, hflags, hpc, himage, hports⟩ := s.setSp_spec (low10 (s.reg a))
  obtain ⟨hnext, hregs', hflags', hsp', hcells', himage', hports'⟩ := (s.setSp (low10 (s.reg a))).advance_spec
  have hlow := (congrArg BitVec.toNat (hsp'.trans hsp)).trans (low10_toNat (s.reg a))
  exact ⟨hlow, State.atNext_of_pc_eq hpc hnext, hregs.trans hregs', hflags.trans hflags', hcells.trans hcells',
    himage.trans himage', hports.trans hports'⟩

end Sys2Proof.Proofs
end

section
/-! The obligation of spec/42_register_register.md R90: mv. The format RR words are settled from the opcode and the two register
fields, and the effect from the rule for `finishMove`. -/

open Sys2Proof Sys2Proof.Machine Sys2Proof.Layout

namespace Sys2Proof.Proofs

/-! ## Format RR (R55) -/

/-- The canonical word of format RR as a number: opcode, register A, register B, five zero bits. -/
theorem formatRR_toNat (op : Opcode) (a b : Reg) :
    (formatRR op a b).toNat = op.toNat * 2048 + a.toBits.toNat * 256 + b.toBits.toNat * 32 := by
  calc (formatRR op a b).toNat
      = (op ++ a.toBits ++ b.toBits).toNat * 2 ^ 5 + (0#5).toNat := toNat_append_eq (op ++ a.toBits ++ b.toBits) 0#5
    _ = ((op.toNat * 2 ^ 3 + a.toBits.toNat) * 2 ^ 3 + b.toBits.toNat) * 2 ^ 5 + (0#5).toNat := by
        rw [toNat_append_eq (op ++ a.toBits) b.toBits, toNat_append_eq op a.toBits]
    _ = op.toNat * 2048 + a.toBits.toNat * 256 + b.toBits.toNat * 32 := by simp only [BitVec.toNat_ofNat]; omega

/-- Instructions that the opcode and the two registers select, and whose words are the format RR words of that opcode, have
layout RR. -/
theorem isRR_of_opField {op : Opcode} {mk : Reg → Reg → Instr}
    (hdecode : ∀ w : Word, opField w = op → decode w = mk (regA w) (regB w))
    (hencode : ∀ a b, encode (mk a b) = formatRR op a b) : isRR op mk := by
  refine ⟨fun a b x => ?_, fun a b => ?_⟩
  · rw [hdecode _ (opField_reg_reg op a.toBits b.toBits x), regA_reg_reg, regB_reg_reg, Reg.ofBits_toBits, Reg.ofBits_toBits]
  · rw [hencode, formatRR_toNat]

/-! ## mv (R90) -/

theorem decode_eq_mv_of_opField (w : Word) (h : opField w = 0b00001#5) : decode w = .mv (regA w) (regB w) := by
  simp only [decode, h]

theorem exec_mv (a b : Reg) (s : State) : exec (.mv a b) s = .next (s.finishMove a (s.reg b)) := rfl

/-- Settles O31: layout RR from the opcode, and the effect is `finishMove` with register B's value, whose rule is the whole frame,
the flags among it. -/
theorem mvCopiesRegisterB : Obligations.MvCopiesRegisterB := by
  unfold Obligations.MvCopiesRegisterB
  exact ⟨isRR_of_opField decode_eq_mv_of_opField fun _ _ => rfl,
    fun a b s => ⟨_, exec_mv a b s, s.finishMove_spec a (s.reg b)⟩⟩

end Sys2Proof.Proofs
end

section
/-! The obligations of spec/43_register_immediate.md R105 and R106: mvh and mvl. The format RI words are settled from the opcode,
register A and the immediate field, and each effect from the rule for `finishMove` and the value of the word with one byte
replaced. -/

open Sys2Proof Sys2Proof.Machine Sys2Proof.Layout

namespace Sys2Proof.Proofs

/-! ## Format RI (R56) -/

/-- The canonical word of format RI as a number: opcode, register A, the immediate. -/
theorem formatRI_toNat (op : Opcode) (a : Reg) (imm : BitVec 8) :
    (formatRI op a imm).toNat = op.toNat * 2048 + a.toBits.toNat * 256 + imm.toNat := by
  calc (formatRI op a imm).toNat = (op ++ a.toBits).toNat * 2 ^ 8 + imm.toNat := toNat_append_eq (op ++ a.toBits) imm
    _ = (op.toNat * 2 ^ 3 + a.toBits.toNat) * 2 ^ 8 + imm.toNat := by rw [toNat_append_eq op a.toBits]
    _ = op.toNat * 2048 + a.toBits.toNat * 256 + imm.toNat := by omega

/-- Instructions that the opcode, register A and the immediate select, and whose words are the format RI words of that opcode,
have layout RI. -/
theorem isRI_of_opField {op : Opcode} {mk : Reg → BitVec 8 → Instr}
    (hdecode : ∀ w : Word, opField w = op → decode w = mk (regA w) (imm8Field w))
    (hencode : ∀ a imm, encode (mk a imm) = formatRI op a imm) : isRI op mk := by
  refine ⟨fun a imm => ?_, fun a imm => ?_⟩
  · rw [hdecode _ (opField_reg op a.toBits imm), regA_reg, imm8Field_reg, Reg.ofBits_toBits]
  · rw [hencode, formatRI_toNat]

/-! ## mvh (R105) -/

theorem decode_eq_mvh_of_opField (w : Word) (h : opField w = 0b00010#5) : decode w = .mvh (regA w) (imm8Field w) := by
  simp only [decode, h]

theorem exec_mvh (a : Reg) (imm : BitVec 8) (s : State) :
    exec (.mvh a imm) s = .next (s.finishMove a (withHighByte (s.reg a) imm)) := rfl

/-- Settles O41: layout RI from the opcode; register A holds the word with its high byte replaced, and the frame is that of
`finishMove`, the flags among it. -/
theorem mvhReplacesHighByte : Obligations.MvhReplacesHighByte := by
  unfold Obligations.MvhReplacesHighByte
  refine ⟨isRI_of_opField decode_eq_mvh_of_opField fun _ _ => rfl, fun a imm s => ⟨_, exec_mvh a imm s, ?_⟩⟩
  obtain ⟨hreg, hframe⟩ := s.finishMove_spec a (withHighByte (s.reg a) imm)
  exact ⟨(congrArg BitVec.toNat hreg).trans (withHighByte_toNat (s.reg a) imm), hframe⟩

/-! ## mvl (R106) -/

theorem decode_eq_mvl_of_opField (w : Word) (h : opField w = 0b00011#5) : decode w = .mvl (regA w) (imm8Field w) := by
  simp only [decode, h]

theorem exec_mvl (a : Reg) (imm : BitVec 8) (s : State) :
    exec (.mvl a imm) s = .next (s.finishMove a (withLowByte (s.reg a) imm)) := rfl

/-- Settles O42: layout RI from the opcode; register A holds the word with its low byte replaced, and the frame is that of
`finishMove`, the flags among it. -/
theorem mvlReplacesLowByte : Obligations.MvlReplacesLowByte := by
  unfold Obligations.MvlReplacesLowByte
  refine ⟨isRI_of_opField decode_eq_mvl_of_opField fun _ _ => rfl, fun a imm s => ⟨_, exec_mvl a imm s, ?_⟩⟩
  obtain ⟨hreg, hframe⟩ := s.finishMove_spec a (withLowByte (s.reg a) imm)
  exact ⟨(congrArg BitVec.toNat hreg).trans (withLowByte_toNat (s.reg a) imm), hframe⟩

end Sys2Proof.Proofs
end

section
/-! The obligations of spec/44_load_store.md R111, R112 and R113: st in both forms and ld, stack offset form. The format MR and MS
words are settled from the opcode, the registers and the signed offset, and each effect from the rule of the shared operation that
ends it, at the effective address that the rules for `regAddr` and `spAddr` pin to the sum mod 2^10. -/

open Sys2Proof Sys2Proof.Machine Sys2Proof.Layout

namespace Sys2Proof.Proofs

/-! ## Format MR (R57) -/

/-- The canonical word of format MR as a number: opcode, register A, register B, the offset's five bits. -/
theorem formatMR_toInt_toNat (op : Opcode) (a b : Reg) (off : BitVec 5) :
    (formatMR op a b off.toInt).toNat = op.toNat * 2048 + a.toBits.toNat * 256 + b.toBits.toNat * 32 + off.toNat := by
  calc (formatMR op a b off.toInt).toNat
      = (op ++ a.toBits ++ b.toBits ++ off).toNat := by rw [formatMR, BitVec.ofInt_toInt]
    _ = ((op.toNat * 2 ^ 3 + a.toBits.toNat) * 2 ^ 3 + b.toBits.toNat) * 2 ^ 5 + off.toNat := by
        rw [toNat_append_eq (op ++ a.toBits ++ b.toBits) off, toNat_append_eq (op ++ a.toBits) b.toBits,
          toNat_append_eq op a.toBits]
    _ = op.toNat * 2048 + a.toBits.toNat * 256 + b.toBits.toNat * 32 + off.toNat := by omega

/-- Instructions that the opcode, the two registers and the signed offset select, and whose words are the format MR words of that
opcode, have layout MR. -/
theorem isMR_of_opField {op : Opcode} {mk : Reg → Reg → Int → Instr}
    (hdecode : ∀ w : Word, opField w = op → decode w = mk (regA w) (regB w) (off5Field w))
    (hencode : ∀ a b off, encode (mk a b off) = formatMR op a b off) : isMR op mk := by
  refine ⟨fun a b off => ?_, fun a b off => ?_⟩
  · rw [hdecode _ (opField_reg_reg op a.toBits b.toBits off), regA_reg_reg, regB_reg_reg, off5Field_reg_reg,
      Reg.ofBits_toBits, Reg.ofBits_toBits]
  · rw [hencode, formatMR_toInt_toNat]

/-! ## Format MS (R58) -/

/-- The format MS word of an offset is the format RI word whose immediate is the offset's eight bits. -/
theorem formatMS_toInt (op : Opcode) (a : Reg) (off : BitVec 8) : formatMS op a off.toInt = formatRI op a off := by
  rw [formatMS, BitVec.ofInt_toInt, formatRI]

/-- Instructions that the opcode, register A and the signed offset select, and whose words are the format MS words of that opcode,
have layout MS. -/
theorem isMS_of_opField {op : Opcode} {mk : Reg → Int → Instr}
    (hdecode : ∀ w : Word, opField w = op → decode w = mk (regA w) (off8Field w))
    (hencode : ∀ a off, encode (mk a off) = formatMS op a off) : isMS op mk := by
  refine ⟨fun a off => ?_, fun a off => ?_⟩
  · rw [hdecode _ (opField_reg op a.toBits off), regA_reg, off8Field_reg, Reg.ofBits_toBits]
  · rw [hencode, formatMS_toInt, formatRI_toNat]

/-! ## st, register offset (R111) -/

/-- The opcode of `st` is the one the decoder's last arm is left with, so the match is evaluated at it. -/
theorem decode_eq_stReg_of_opField (w : Word) (h : opField w = 0b11111#5) :
    decode w = .stReg (regA w) (regB w) (off5Field w) := by
  unfold decode
  rw [h]
  rfl

theorem exec_stReg (a b : Reg) (off : Int) (s : State) :
    exec (.stReg a b off) s = .next (s.finishStore (s.regAddr b off) a) := rfl

/-- Settles O44: layout MR from the opcode; the address is the sum mod 2^10, and the effect is `finishStore` there, whose rule is
the cell and the whole frame. -/
theorem stRegisterOffsetStoresCell : Obligations.StRegisterOffsetStoresCell := by
  unfold Obligations.StRegisterOffsetStoresCell
  refine ⟨isMR_of_opField decode_eq_stReg_of_opField fun _ _ _ => rfl, fun a b off s => ⟨_, exec_stReg a b off s, ?_⟩⟩
  obtain ⟨hcell, hcells, hnext, hframe⟩ := s.finishStore_spec (s.regAddr b off) a
  exact ⟨s.regAddr_toNat b off, hcell, hnext, hcells, hframe⟩

/-! ## ld, stack offset (R112) -/

theorem decode_eq_ldSp_of_opField (w : Word) (h : opField w = 0b00100#5) : decode w = .ldSp (regA w) (off8Field w) := by
  simp only [decode, h]

theorem exec_ldSp (a : Reg) (off : Int) (s : State) :
    exec (.ldSp a off) s = .next (s.finishMove a (s.memRead (s.spAddr off))) := rfl

/-- Settles O45: layout MS from the opcode; the address is the sum mod 2^10, and the effect is `finishMove` with the cell there,
whose rule is the whole frame, sp among it. -/
theorem ldStackOffsetLoadsCell : Obligations.LdStackOffsetLoadsCell := by
  unfold Obligations.LdStackOffsetLoadsCell
  exact ⟨isMS_of_opField decode_eq_ldSp_of_opField fun _ _ => rfl,
    fun a off s => ⟨_, exec_ldSp a off s, s.spAddr_toNat off, s.finishMove_spec a (s.memRead (s.spAddr off))⟩⟩

/-! ## st, stack offset (R113) -/

theorem decode_eq_stSp_of_opField (w : Word) (h : opField w = 0b00101#5) : decode w = .stSp (regA w) (off8Field w) := by
  simp only [decode, h]

theorem exec_stSp (a : Reg) (off : Int) (s : State) :
    exec (.stSp a off) s = .next (s.finishStore (s.spAddr off) a) := rfl

/-- Settles O46: layout MS from the opcode; the address is the sum mod 2^10, and the effect is `finishStore` there, whose rule is
the cell and the whole frame, sp among it. -/
theorem stStackOffsetStoresCell : Obligations.StStackOffsetStoresCell := by
  unfold Obligations.StStackOffsetStoresCell
  refine ⟨isMS_of_opField decode_eq_stSp_of_opField fun _ _ => rfl, fun a off s => ⟨_, exec_stSp a off s, ?_⟩⟩
  obtain ⟨hcell, hcells, hnext, hframe⟩ := s.finishStore_spec (s.spAddr off) a
  exact ⟨s.spAddr_toNat off, hcell, hnext, hcells, hframe⟩

end Sys2Proof.Proofs
end

section
/-! The obligations of spec/45_address.md R121 to R126: the five jumps and the immediate form of lsp. The format A words are settled
from the opcode and the address field. The four conditional jumps are one argument: `branch`, on a condition that says what the
rule's flag test says. -/

open Sys2Proof Sys2Proof.Machine Sys2Proof.Layout

namespace Sys2Proof.Machine

/-- `setPc` sets pc and does nothing else. -/
theorem State.setPc_spec (s : State) (a : Addr) :
    (s.setPc a).pc = a ∧ s.sameRegs (s.setPc a) [] ∧ s.sameFlags (s.setPc a) ∧ (s.setPc a).sp = s.sp
      ∧ s.sameCells (s.setPc a) [] ∧ s.sameImage (s.setPc a) ∧ s.samePorts (s.setPc a) :=
  ⟨s.setPc_pc a, fun q _ => s.setPc_reg a q, ⟨s.setPc_c a, s.setPc_z a⟩, s.setPc_sp a, fun x _ => s.setPc_memRead a x,
    s.setPc_imem a, ⟨s.setPc_output a, s.setPc_inputScript a, s.setPc_inputCount a⟩⟩

/-- Where a branch goes, for a condition given as the proposition it decides: to the address, or on to the increment. -/
theorem State.branch_pc_of_iff {P : Prop} [Decidable P] {cond : Bool} (hcond : cond = true ↔ P) (s : State) (addr : Addr) :
    if P then (s.branch cond addr).pc = addr else s.atNext (s.branch cond addr) := by
  obtain ⟨hpc, -⟩ := s.branch_spec cond addr
  split
  next hP => rw [hpc, if_pos (hcond.mpr hP)]
  next hP => rw [State.atNext, hpc, if_neg (mt hcond.mp hP), nextAddr_toNat]

end Sys2Proof.Machine

namespace Sys2Proof.Proofs

/-! ## Format A (R59) -/

/-- The canonical word of format A as a number: opcode, address, one zero bit. -/
theorem formatA_toNat (op : Opcode) (addr : Addr) : (formatA op addr).toNat = op.toNat * 2048 + addr.toNat * 2 := by
  calc (formatA op addr).toNat = (op ++ addr).toNat * 2 ^ 1 + (0#1).toNat := toNat_append_eq (op ++ addr) 0#1
    _ = (op.toNat * 2 ^ 10 + addr.toNat) * 2 ^ 1 + (0#1).toNat := by rw [toNat_append_eq op addr]
    _ = op.toNat * 2048 + addr.toNat * 2 := by simp only [BitVec.toNat_ofNat]; omega

/-- Instructions that the opcode and the address select, and whose words are the format A words of that opcode, have layout A. -/
theorem isA_of_opField {op : Opcode} {mk : Addr → Instr} (hdecode : ∀ w : Word, opField w = op → decode w = mk (addrField w))
    (hencode : ∀ addr, encode (mk addr) = formatA op addr) : isA op mk := by
  refine ⟨fun addr x => ?_, fun addr => ?_⟩
  · rw [hdecode _ (opField_address op addr x), addrField_address]
  · rw [hencode, formatA_toNat]

/-! ## jmp (R121) -/

theorem decode_eq_jmp_of_opField (w : Word) (h : opField w = 0b01001#5) : decode w = .jmp (addrField w) := by
  simp only [decode, h]

theorem exec_jmp (addr : Addr) (s : State) : exec (.jmp addr) s = .next (s.setPc addr) := rfl

/-- Settles O48: layout A from the opcode, and the effect is `setPc`, whose rule is the whole frame. -/
theorem jmpSetsPc : Obligations.JmpSetsPc := by
  unfold Obligations.JmpSetsPc
  exact ⟨isA_of_opField decode_eq_jmp_of_opField fun _ => rfl, fun addr s => ⟨_, exec_jmp addr s, s.setPc_spec addr⟩⟩

/-! ## The conditional jumps (R122 to R125) -/

/-- An instruction whose meaning is `branch` answers a next state, goes where its condition says and leaves all but pc alone. -/
theorem exec_of_branch {P : Prop} [Decidable P] {cond : Bool} {i : Instr} {addr : Addr} {s : State}
    (hexec : exec i s = .next (s.branch cond addr)) (hcond : cond = true ↔ P) :
    ∃ t, exec i s = .next t ∧ (if P then t.pc = addr else s.atNext t)
      ∧ s.sameRegs t [] ∧ s.sameFlags t ∧ t.sp = s.sp ∧ s.sameCells t [] ∧ s.sameImage t ∧ s.samePorts t := by
  obtain ⟨-, hframe⟩ := s.branch_spec cond addr
  exact ⟨_, hexec, s.branch_pc_of_iff hcond addr, hframe⟩

theorem decode_eq_jc_of_opField (w : Word) (h : opField w = 0b01010#5) : decode w = .jc (addrField w) := by
  simp only [decode, h]

theorem exec_jc (addr : Addr) (s : State) : exec (.jc addr) s = .next (s.branch s.c addr) := rfl

/-- Settles O49: layout A from the opcode, and the effect is `branch` on c. -/
theorem jcJumpsIfCarry : Obligations.JcJumpsIfCarry := by
  unfold Obligations.JcJumpsIfCarry
  exact ⟨isA_of_opField decode_eq_jc_of_opField fun _ => rfl, fun addr s => exec_of_branch (exec_jc addr s) Iff.rfl⟩

theorem decode_eq_jnc_of_opField (w : Word) (h : opField w = 0b01011#5) : decode w = .jnc (addrField w) := by
  simp only [decode, h]

theorem exec_jnc (addr : Addr) (s : State) : exec (.jnc addr) s = .next (s.branch (!s.c) addr) := rfl

/-- Settles O50: layout A from the opcode, and the effect is `branch` on the negation of c, which holds when c is 0. -/
theorem jncJumpsIfNoCarry : Obligations.JncJumpsIfNoCarry := by
  unfold Obligations.JncJumpsIfNoCarry
  exact ⟨isA_of_opField decode_eq_jnc_of_opField fun _ => rfl,
    fun addr s => exec_of_branch (exec_jnc addr s) (Iff.of_eq (Bool.not_eq_true' s.c))⟩

theorem decode_eq_jz_of_opField (w : Word) (h : opField w = 0b01100#5) : decode w = .jz (addrField w) := by
  simp only [decode, h]

theorem exec_jz (addr : Addr) (s : State) : exec (.jz addr) s = .next (s.branch s.z addr) := rfl

/-- Settles O51: layout A from the opcode, and the effect is `branch` on z. -/
theorem jzJumpsIfZero : Obligations.JzJumpsIfZero := by
  unfold Obligations.JzJumpsIfZero
  exact ⟨isA_of_opField decode_eq_jz_of_opField fun _ => rfl, fun addr s => exec_of_branch (exec_jz addr s) Iff.rfl⟩

theorem decode_eq_jnz_of_opField (w : Word) (h : opField w = 0b01101#5) : decode w = .jnz (addrField w) := by
  simp only [decode, h]

theorem exec_jnz (addr : Addr) (s : State) : exec (.jnz addr) s = .next (s.branch (!s.z) addr) := rfl

/-- Settles O52: layout A from the opcode, and the effect is `branch` on the negation of z, which holds when z is 0. -/
theorem jnzJumpsIfNotZero : Obligations.JnzJumpsIfNotZero := by
  unfold Obligations.JnzJumpsIfNotZero
  exact ⟨isA_of_opField decode_eq_jnz_of_opField fun _ => rfl,
    fun addr s => exec_of_branch (exec_jnz addr s) (Iff.of_eq (Bool.not_eq_true' s.z))⟩

/-! ## lsp, immediate form (R126) -/

theorem decode_eq_lspImm_of_opField (w : Word) (h : opField w = 0b11011#5) : decode w = .lspImm (addrField w) := by
  simp only [decode, h]

theorem exec_lspImm (addr : Addr) (s : State) : exec (.lspImm addr) s = .next (s.setSp addr).advance := rfl

/-- Settles O53: sp is that of `setSp`, pc is that of `advance`, and the frames of the two compose. -/
theorem lspImmediateSetsSp : Obligations.LspImmediateSetsSp := by
  unfold Obligations.LspImmediateSetsSp
  refine ⟨isA_of_opField decode_eq_lspImm_of_opField fun _ => rfl, fun addr s => ⟨_, exec_lspImm addr s, ?_⟩⟩
  obtain ⟨hsp, hcells, hregs, hflags, hpc, himage, hports⟩ := s.setSp_spec addr
  obtain ⟨hnext, hregs', hflags', hsp', hcells', himage', hports'⟩ := (s.setSp addr).advance_spec
  exact ⟨hsp'.trans hsp, State.atNext_of_pc_eq hpc hnext, hregs.trans hregs', hflags.trans hflags', hcells.trans hcells',
    himage.trans himage', hports.trans hports'⟩

end Sys2Proof.Proofs
end

section
/-! The obligations of spec/41_register.md R77, R78, R81 and R82 (in, out, rsp, not) and of spec/40_no_argument.md R71 (ret). Each
effect is put together from the rules of the shared operations its meaning is made of; the ends that all logic operations and shifts
share are one lemma over `finishAlu`. -/

open Sys2Proof Sys2Proof.Machine Sys2Proof.Layout

namespace Sys2Proof.Machine

/-- `tookInput` takes one value from the input port and does nothing else. -/
theorem State.tookInput_spec (s : State) :
    s.tookInput.inputScript = s.inputScript.tail ∧ s.tookInput.inputCount = s.inputCount + 1 ∧ s.tookInput.output = s.output
      ∧ s.sameRegs s.tookInput [] ∧ s.sameFlags s.tookInput ∧ s.tookInput.sp = s.sp ∧ s.tookInput.pc = s.pc
      ∧ s.sameCells s.tookInput [] ∧ s.sameImage s.tookInput :=
  ⟨s.tookInput_inputScript, s.tookInput_inputCount, s.tookInput_output, fun q _ => s.tookInput_reg q,
    ⟨s.tookInput_c, s.tookInput_z⟩, s.tookInput_sp, s.tookInput_pc, fun x _ => s.tookInput_memRead x, s.tookInput_imem⟩

/-- `portOut` appends to the output trace and does nothing else. -/
theorem State.portOut_spec (s : State) (v : Word) :
    (s.portOut v).output = s.output ++ [v] ∧ (s.portOut v).inputScript = s.inputScript
      ∧ (s.portOut v).inputCount = s.inputCount ∧ s.sameRegs (s.portOut v) [] ∧ s.sameFlags (s.portOut v)
      ∧ (s.portOut v).sp = s.sp ∧ (s.portOut v).pc = s.pc ∧ s.sameCells (s.portOut v) [] ∧ s.sameImage (s.portOut v) :=
  ⟨s.portOut_output v, s.portOut_inputScript v, s.portOut_inputCount v, fun q _ => s.portOut_reg v q,
    ⟨s.portOut_c v, s.portOut_z v⟩, s.portOut_sp v, s.portOut_pc v, fun x _ => s.portOut_memRead v x, s.portOut_imem v⟩

/-- The port presents the script's next value (log 7). -/
theorem State.portIn_of_cons {s : State} {v : Word} {rest : List Word} (h : s.inputScript = v :: rest) : s.portIn = v := by
  simp only [State.portIn, h]

/-- Where there is no script, the port presents the free value of this `in` (log 7). -/
theorem State.portIn_of_nil {s : State} (h : s.inputScript = []) : s.portIn = Config.input s.inputCount := by
  simp only [State.portIn, h]

end Sys2Proof.Machine

namespace Sys2Proof.Proofs

/-! ## ret (R71) -/

theorem decode_eq_ret_of_opField (w : Word) (h : opField w = 0b01111#5) : decode w = .ret := by
  simp only [decode, h]

theorem exec_ret (s : State) : exec .ret s = .next (s.dropTop.setPc (low10 s.topWord)) := rfl

/-- Settles O22: sp is that of `dropTop`, pc is that of `setPc` at the top value mod 2^10, and the frames of the two compose. -/
theorem retLoadsPcFromTopOfStack : Obligations.RetLoadsPcFromTopOfStack := by
  unfold Obligations.RetLoadsPcFromTopOfStack
  refine ⟨isN_of_opField decode_eq_ret_of_opField rfl, fun s => ⟨_, exec_ret s, ?_⟩⟩
  obtain ⟨hsp, hcells, hregs, hflags, -, himage, hports⟩ := s.dropTop_spec
  obtain ⟨hpc, hregs', hflags', hsp', hcells', himage', hports'⟩ := s.dropTop.setPc_spec (low10 s.topWord)
  have htop : (s.dropTop.setPc (low10 s.topWord)).pc.toNat = (s.memRead (s.sp + 1)).toNat % 1024 := by
    rw [hpc, low10_toNat, topWord_eq_memRead]
  exact ⟨htop, (hsp'.trans hsp).trans (nextAddr_eq_add_one s.sp), hregs.trans hregs', hflags.trans hflags',
    hcells.trans hcells', himage.trans himage', hports.trans hports'⟩

/-! ## in (R77) -/

theorem decode_eq_inPort_of_opField (w : Word) (h : opField w = 0b00110#5) : decode w = .inPort (regA w) := by
  simp only [decode, h]

theorem exec_inPort (a : Reg) (s : State) : exec (.inPort a) s = .next (s.tookInput.finishMove a s.portIn) := rfl

/-- Settles O25: the ports are those of `tookInput`, register A and pc are those of `finishMove` with what the port presents, and
the frames of the two compose. -/
theorem inTakesThePresentedValue : Obligations.InTakesThePresentedValue := by
  unfold Obligations.InTakesThePresentedValue
  refine ⟨isR_of_opField decode_eq_inPort_of_opField fun _ => rfl, fun a s => ⟨_, exec_inPort a s, ?_⟩⟩
  obtain ⟨hscript, hcount, hout, hregs, hflags, hsp, hpc, hcells, himage⟩ := s.tookInput_spec
  obtain ⟨hreg, hnext, hregs', hflags', hsp', hcells', himage', hout', hscript', hcount'⟩ :=
    s.tookInput.finishMove_spec a s.portIn
  refine ⟨?_, hcount'.trans hcount, State.atNext_of_pc_eq hpc hnext, hout'.trans hout, hregs.trans hregs',
    hflags.trans hflags', hsp'.trans hsp, hcells.trans hcells', himage.trans himage'⟩
  split
  next v rest hs => exact ⟨hreg.trans (State.portIn_of_cons hs), by rw [hscript', hscript, hs, List.tail_cons]⟩
  next hs => exact ⟨hreg.trans (State.portIn_of_nil hs), by rw [hscript', hscript, hs, List.tail_nil]⟩

/-! ## out (R78) -/

theorem decode_eq_outPort_of_opField (w : Word) (h : opField w = 0b00111#5) : decode w = .outPort (regA w) := by
  simp only [decode, h]

theorem exec_outPort (a : Reg) (s : State) : exec (.outPort a) s = .next (s.portOut (s.reg a)).advance := rfl

/-- Settles O26: the output trace is that of `portOut`, pc is that of `advance`, and the frames of the two compose. -/
theorem outAppendsTheRegister : Obligations.OutAppendsTheRegister := by
  unfold Obligations.OutAppendsTheRegister
  refine ⟨isR_of_opField decode_eq_outPort_of_opField fun _ => rfl, fun a s => ⟨_, exec_outPort a s, ?_⟩⟩
  obtain ⟨hout, hscript, hcount, hregs, hflags, hsp, hpc, hcells, himage⟩ := s.portOut_spec (s.reg a)
  obtain ⟨hnext, hregs', hflags', hsp', hcells', himage', hout', hscript', hcount'⟩ := (s.portOut (s.reg a)).advance_spec
  exact ⟨hout'.trans hout, hscript'.trans hscript, hcount'.trans hcount, State.atNext_of_pc_eq hpc hnext,
    hregs.trans hregs', hflags.trans hflags', hsp'.trans hsp, hcells.trans hcells', himage.trans himage'⟩

/-! ## rsp (R81) -/

theorem decode_eq_rsp_of_opField (w : Word) (h : opField w = 0b11101#5) : decode w = .rsp (regA w) := by
  simp only [decode, h]

theorem exec_rsp (a : Reg) (s : State) : exec (.rsp a) s = .next (s.finishMove a (zext10 s.sp)) := rfl

/-- Settles O29: the effect is `finishMove` with sp zero-extended, whose rule is the whole frame. -/
theorem rspZeroExtendsSp : Obligations.RspZeroExtendsSp := by
  unfold Obligations.RspZeroExtendsSp
  refine ⟨isR_of_opField decode_eq_rsp_of_opField fun _ => rfl, fun a s => ⟨_, exec_rsp a s, ?_⟩⟩
  obtain ⟨hreg, hnext, hregs, hflags, hsp, hframe⟩ := s.finishMove_spec a (zext10 s.sp)
  exact ⟨(congrArg BitVec.toNat hreg).trans (zext10_toNat s.sp), hsp, hnext, hregs, hflags, hframe⟩

/-! ## not (R82), and what every logic operation and shift ends in -/

/-- An instruction whose meaning is `finishAlu` with c cleared leaves its result in register A, with whatever holds of the result,
sets z from it and leaves the rest alone. -/
theorem exec_of_finishAlu (P : Word → Prop) {i : Instr} {a : Reg} {v : Word} {s : State}
    (hexec : exec i s = .next (s.finishAlu a v false)) (hv : P v) :
    ∃ t, exec i s = .next t ∧ P (t.reg a) ∧ (t.z = true ↔ t.reg a = 0) ∧ t.c = false ∧ s.atNext t
      ∧ s.sameRegs t [a] ∧ t.sp = s.sp ∧ s.sameCells t [] ∧ s.sameImage t ∧ s.samePorts t := by
  obtain ⟨hreg, hc, hz, hframe⟩ := s.finishAlu_spec a v false
  exact ⟨_, hexec, hreg.symm ▸ hv, hreg.symm ▸ hz, hc, hframe⟩

theorem decode_eq_not_of_opField (w : Word) (h : opField w = 0b10110#5) : decode w = .not (regA w) := by
  simp only [decode, h]

theorem exec_not (a : Reg) (s : State) : exec (.not a) s = .next (s.finishAlu a (~~~ s.reg a) false) := rfl

/-- Settles O30: the effect is `finishAlu` with the complement, read bit by bit. -/
theorem notInvertsEveryBit : Obligations.NotInvertsEveryBit := by
  unfold Obligations.NotInvertsEveryBit
  refine ⟨isR_of_opField decode_eq_not_of_opField fun _ => rfl, fun a s => ?_⟩
  refine exec_of_finishAlu (fun v => ∀ k, k < 16 → v.getLsbD k = !(s.reg a).getLsbD k) (exec_not a s) fun k hk => ?_
  rw [BitVec.getLsbD_not, decide_eq_true hk, Bool.true_and]

end Sys2Proof.Proofs
end

section
/-! The obligations of spec/42_register_register.md R91 to R99: arithmetic, comparison, logic and shifts. The model computes on exact
integers; the shifts are first tied to the library's shifts of words, whose bits are known. -/

open Sys2Proof Sys2Proof.Machine Sys2Proof.Layout

namespace Sys2Proof.Machine

/-- The logical right shift by the whole value of `n` is that of words: from 16 on the quotient is 0 (D10). -/
theorem shiftRight_eq_ushiftRight (x n : Word) : shiftRight x n = x >>> n.toNat := by
  apply BitVec.eq_of_toNat_eq
  rw [shiftRight_toNat, BitVec.toNat_ushiftRight, Nat.shiftRight_eq_div_pow]
  split
  next hn =>
    have hlt : x.toNat < 2 ^ n.toNat := lt_of_lt_of_le x.isLt (Nat.pow_le_pow_right two_pos hn)
    rw [Nat.div_eq_of_lt hlt]
  next => rfl

/-- The left shift by the whole value of `n` is that of words: from 16 on the product is a multiple of 2^16 (D10). -/
theorem shiftLeft_eq_hShiftLeft (x n : Word) : shiftLeft x n = x <<< n.toNat := by
  apply BitVec.eq_of_toNat_eq
  rw [shiftLeft_toNat, BitVec.toNat_shiftLeft, Nat.shiftLeft_eq]
  split
  next hn =>
    have hdvd : 2 ^ 16 ∣ x.toNat * 2 ^ n.toNat := Dvd.dvd.mul_left (Nat.pow_dvd_pow 2 hn) x.toNat
    exact (Nat.mod_eq_zero_of_dvd hdvd).symm
  next => rfl

/-- `setFlags` writes both flags and does nothing else. -/
theorem State.setFlags_spec (s : State) (c z : Bool) :
    (s.setFlags c z).c = c ∧ (s.setFlags c z).z = z ∧ s.sameRegs (s.setFlags c z) [] ∧ (s.setFlags c z).sp = s.sp
      ∧ (s.setFlags c z).pc = s.pc ∧ s.sameCells (s.setFlags c z) [] ∧ s.sameImage (s.setFlags c z)
      ∧ s.samePorts (s.setFlags c z) :=
  ⟨s.setFlags_c c z, s.setFlags_z c z, fun q _ => s.setFlags_reg c z q, s.setFlags_sp c z, s.setFlags_pc c z,
    fun x _ => s.setFlags_memRead c z x, s.setFlags_imem c z,
    ⟨s.setFlags_output c z, s.setFlags_inputScript c z, s.setFlags_inputCount c z⟩⟩

/-- A difference is 0x0000 exactly when the operands are equal: z of `sub` is z of `cmp`. -/
theorem subWords_eq_zero_iff (x y : Word) : subWords x y = 0 ↔ x = y := by
  rw [subWords_eq_sub, sub_eq_zero]

theorem isZero_subWords (x y : Word) : isZero (subWords x y) = equalWords x y := by
  rw [Bool.eq_iff_iff, isZero_eq_true, equalWords_eq_true, subWords_eq_zero_iff]

/-- The signed and the unsigned comparison agree exactly on operands of equal sign bits: a sign bit takes 2^16 off the value. -/
theorem signedLess_eq_borrowOfSub_iff (x y : Word) : signedLess x y = borrowOfSub x y ↔ x.msb = y.msb := by
  have hx := x.isLt
  have hy := y.isLt
  rw [Bool.eq_iff_iff, signedLess_eq_true, borrowOfSub_eq_true, BitVec.toInt_eq_toNat_cond, BitVec.toInt_eq_toNat_cond,
    BitVec.msb_eq_decide, BitVec.msb_eq_decide, decide_eq_decide]
  split <;> split <;> omega

end Sys2Proof.Machine

namespace Sys2Proof.Proofs

/-! ## add (R91) -/

theorem decode_eq_add_of_opField (w : Word) (h : opField w = 0b10010#5) : decode w = .add (regA w) (regB w) := by
  simp only [decode, h]

theorem exec_add (a b : Reg) (s : State) :
    exec (.add a b) s = .next (s.finishAlu a (addWords (s.reg a) (s.reg b)) (carryOfAdd (s.reg a) (s.reg b))) := rfl

/-- Settles O32: the effect is `finishAlu` with the sum and its carry. -/
theorem addWrapsAndSetsCarry : Obligations.AddWrapsAndSetsCarry := by
  unfold Obligations.AddWrapsAndSetsCarry
  refine ⟨isRR_of_opField decode_eq_add_of_opField fun _ _ => rfl, fun a b s => ⟨_, exec_add a b s, ?_⟩⟩
  obtain ⟨hreg, hc, hz, hframe⟩ :=
    s.finishAlu_spec a (addWords (s.reg a) (s.reg b)) (carryOfAdd (s.reg a) (s.reg b))
  rw [hreg, hc]
  exact ⟨addWords_toNat _ _, carryOfAdd_eq_true _ _, hz, hframe⟩

/-! ## sub (R92) -/

theorem decode_eq_sub_of_opField (w : Word) (h : opField w = 0b10011#5) : decode w = .sub (regA w) (regB w) := by
  simp only [decode, h]

theorem exec_sub (a b : Reg) (s : State) :
    exec (.sub a b) s = .next (s.finishAlu a (subWords (s.reg a) (s.reg b)) (borrowOfSub (s.reg a) (s.reg b))) := rfl

/-- Settles O33: the effect is `finishAlu` with the difference and its borrow, and a zero difference is equality. -/
theorem subWrapsAndSetsBorrow : Obligations.SubWrapsAndSetsBorrow := by
  unfold Obligations.SubWrapsAndSetsBorrow
  refine ⟨isRR_of_opField decode_eq_sub_of_opField fun _ _ => rfl, fun a b s => ⟨_, exec_sub a b s, ?_⟩⟩
  obtain ⟨hreg, hc, hz, hframe⟩ :=
    s.finishAlu_spec a (subWords (s.reg a) (s.reg b)) (borrowOfSub (s.reg a) (s.reg b))
  rw [hreg, hc]
  exact ⟨subWords_toNat _ _, borrowOfSub_eq_true _ _, hz.trans (subWords_eq_zero_iff _ _), hframe⟩

/-! ## cmp (R93) -/

theorem decode_eq_cmp_of_opField (w : Word) (h : opField w = 0b01000#5) : decode w = .cmp (regA w) (regB w) := by
  simp only [decode, h]

theorem exec_cmp (a b : Reg) (s : State) :
    exec (.cmp a b) s = .next (s.setFlags (signedLess (s.reg a) (s.reg b)) (equalWords (s.reg a) (s.reg b))).advance := rfl

/-- Settles O34: the flags are those of `setFlags` on the two comparisons, pc is that of `advance`, and the frames of the two
compose. -/
theorem cmpComparesSigned : Obligations.CmpComparesSigned := by
  unfold Obligations.CmpComparesSigned
  refine ⟨isRR_of_opField decode_eq_cmp_of_opField fun _ _ => rfl, fun a b s => ⟨_, exec_cmp a b s, ?_⟩⟩
  obtain ⟨hc, hz, hregs, hsp, hpc, hcells, himage, hports⟩ :=
    s.setFlags_spec (signedLess (s.reg a) (s.reg b)) (equalWords (s.reg a) (s.reg b))
  obtain ⟨hnext, hregs', ⟨hc', hz'⟩, hsp', hcells', himage', hports'⟩ :=
    (s.setFlags (signedLess (s.reg a) (s.reg b)) (equalWords (s.reg a) (s.reg b))).advance_spec
  rw [hz', hz, hc', hc]
  exact ⟨equalWords_eq_true _ _, signedLess_eq_true _ _, State.atNext_of_pc_eq hpc hnext, hregs.trans hregs',
    hsp'.trans hsp, hcells.trans hcells', himage.trans himage', hports.trans hports'⟩

/-! ## and, or, xor (R94 to R96) -/

theorem decode_eq_and_of_opField (w : Word) (h : opField w = 0b10100#5) : decode w = .and (regA w) (regB w) := by
  simp only [decode, h]

theorem exec_and (a b : Reg) (s : State) : exec (.and a b) s = .next (s.finishAlu a (s.reg a &&& s.reg b) false) := rfl

/-- Settles O35: the effect is `finishAlu` with the conjunction, read bit by bit. -/
theorem andCombinesBits : Obligations.AndCombinesBits := by
  unfold Obligations.AndCombinesBits
  refine ⟨isRR_of_opField decode_eq_and_of_opField fun _ _ => rfl, fun a b s => ?_⟩
  exact exec_of_finishAlu (fun v => ∀ k, v.getLsbD k = ((s.reg a).getLsbD k && (s.reg b).getLsbD k)) (exec_and a b s)
    fun _ => BitVec.getLsbD_and

theorem decode_eq_or_of_opField (w : Word) (h : opField w = 0b10101#5) : decode w = .or (regA w) (regB w) := by
  simp only [decode, h]

theorem exec_or (a b : Reg) (s : State) : exec (.or a b) s = .next (s.finishAlu a (s.reg a ||| s.reg b) false) := rfl

/-- Settles O36: the effect is `finishAlu` with the disjunction, read bit by bit. -/
theorem orCombinesBits : Obligations.OrCombinesBits := by
  unfold Obligations.OrCombinesBits
  refine ⟨isRR_of_opField decode_eq_or_of_opField fun _ _ => rfl, fun a b s => ?_⟩
  exact exec_of_finishAlu (fun v => ∀ k, v.getLsbD k = ((s.reg a).getLsbD k || (s.reg b).getLsbD k)) (exec_or a b s)
    fun _ => BitVec.getLsbD_or

theorem decode_eq_xor_of_opField (w : Word) (h : opField w = 0b10111#5) : decode w = .xor (regA w) (regB w) := by
  simp only [decode, h]

theorem exec_xor (a b : Reg) (s : State) : exec (.xor a b) s = .next (s.finishAlu a (s.reg a ^^^ s.reg b) false) := rfl

/-- Settles O37: the effect is `finishAlu` with the exclusive disjunction, read bit by bit. -/
theorem xorCombinesBits : Obligations.XorCombinesBits := by
  unfold Obligations.XorCombinesBits
  refine ⟨isRR_of_opField decode_eq_xor_of_opField fun _ _ => rfl, fun a b s => ?_⟩
  exact exec_of_finishAlu (fun v => ∀ k, v.getLsbD k = ((s.reg a).getLsbD k ^^ (s.reg b).getLsbD k)) (exec_xor a b s)
    fun _ => BitVec.getLsbD_xor

/-! ## shr, shl (R97, R98) -/

theorem decode_eq_shr_of_opField (w : Word) (h : opField w = 0b11000#5) : decode w = .shr (regA w) (regB w) := by
  simp only [decode, h]

theorem exec_shr (a b : Reg) (s : State) :
    exec (.shr a b) s = .next (s.finishAlu a (shiftRight (s.reg a) (s.reg b)) false) := rfl

/-- Settles O38: the effect is `finishAlu` with the right shift, whose bits are those of the shift of words, for every amount. -/
theorem shrShiftsByWholeRegister : Obligations.ShrShiftsByWholeRegister := by
  unfold Obligations.ShrShiftsByWholeRegister
  refine ⟨isRR_of_opField decode_eq_shr_of_opField fun _ _ => rfl, fun a b s => ?_⟩
  refine exec_of_finishAlu (fun v => ∀ k, v.getLsbD k = (s.reg a).getLsbD (k + (s.reg b).toNat)) (exec_shr a b s) fun k => ?_
  rw [shiftRight_eq_ushiftRight, BitVec.getLsbD_ushiftRight, Nat.add_comm]

theorem decode_eq_shl_of_opField (w : Word) (h : opField w = 0b11001#5) : decode w = .shl (regA w) (regB w) := by
  simp only [decode, h]

theorem exec_shl (a b : Reg) (s : State) :
    exec (.shl a b) s = .next (s.finishAlu a (shiftLeft (s.reg a) (s.reg b)) false) := rfl

/-- Settles O39: the effect is `finishAlu` with the left shift, whose bits are those of the shift of words, for every amount. -/
theorem shlShiftsByWholeRegister : Obligations.ShlShiftsByWholeRegister := by
  unfold Obligations.ShlShiftsByWholeRegister
  refine ⟨isRR_of_opField decode_eq_shl_of_opField fun _ _ => rfl, fun a b s => ?_⟩
  refine exec_of_finishAlu (fun v => ∀ k, k < 16 → v.getLsbD k
    = (decide ((s.reg b).toNat ≤ k) && (s.reg a).getLsbD (k - (s.reg b).toNat))) (exec_shl a b s) fun k hk => ?_
  have hbelow : (!decide (k < (s.reg b).toNat)) = decide ((s.reg b).toNat ≤ k) := by
    rw [← decide_not, decide_eq_decide, Nat.not_lt]
  rw [shiftLeft_eq_hShiftLeft, BitVec.getLsbD_shiftLeft, decide_eq_true hk, Bool.true_and, hbelow]

/-! ## cmp beside sub (R99) -/

/-- Settles O40: the zero flags are one test of equality, and the carries are the signed and the unsigned comparison. -/
theorem cmpCarryIsSubBorrowExactlyOnEqualSigns : Obligations.CmpCarryIsSubBorrowExactlyOnEqualSigns := by
  unfold Obligations.CmpCarryIsSubBorrowExactlyOnEqualSigns
  intro a b s t u ht hu
  rw [exec_cmp] at ht
  rw [exec_sub] at hu
  cases ht
  cases hu
  exact ⟨(isZero_subWords (s.reg a) (s.reg b)).symm, signedLess_eq_borrowOfSub_iff (s.reg a) (s.reg b)⟩

end Sys2Proof.Proofs
end

section
/-! The obligations of spec/44_load_store.md R110 and spec/45_address.md R120: ld, register offset form, and call. -/

open Sys2Proof Sys2Proof.Machine Sys2Proof.Layout

namespace Sys2Proof.Proofs

/-! ## ld, register offset (R110) -/

theorem decode_eq_ldReg_of_opField (w : Word) (h : opField w = 0b11110#5) :
    decode w = .ldReg (regA w) (regB w) (off5Field w) := by
  simp only [decode, h]

theorem exec_ldReg (a b : Reg) (off : Int) (s : State) :
    exec (.ldReg a b off) s = .next (s.finishMove a (s.memRead (s.regAddr b off))) := rfl

/-- Settles O43: layout MR from the opcode; the address is the sum mod 2^10, and the effect is `finishMove` with the cell there,
whose rule is the whole frame. -/
theorem ldRegisterOffsetLoadsCell : Obligations.LdRegisterOffsetLoadsCell := by
  unfold Obligations.LdRegisterOffsetLoadsCell
  exact ⟨isMR_of_opField decode_eq_ldReg_of_opField fun _ _ _ => rfl,
    fun a b off s => ⟨_, exec_ldReg a b off s, s.regAddr_toNat b off, s.finishMove_spec a (s.memRead (s.regAddr b off))⟩⟩

/-! ## call (R120) -/

theorem decode_eq_call_of_opField (w : Word) (h : opField w = 0b01110#5) : decode w = .call (addrField w) := by
  simp only [decode, h]

theorem exec_call (addr : Addr) (s : State) :
    exec (.call addr) s = .next ((s.pushWord (zext10 (nextAddr s.pc))).setPc addr) := rfl

/-- Settles O47: the cell and sp are those of `pushWord` with the increment zero-extended, pc is that of `setPc`, and the frames of
the two compose. -/
theorem callPushesReturnAddress : Obligations.CallPushesReturnAddress := by
  unfold Obligations.CallPushesReturnAddress
  refine ⟨isA_of_opField decode_eq_call_of_opField fun _ => rfl, fun addr s => ⟨_, exec_call addr s, ?_⟩⟩
  obtain ⟨hcell, hsp, hcells, hregs, hflags, -, himage, hports⟩ := s.pushWord_spec (zext10 (nextAddr s.pc))
  obtain ⟨hpc, hregs', hflags', hsp', hcells', himage', hports'⟩ := (s.pushWord (zext10 (nextAddr s.pc))).setPc_spec addr
  have hreturn : (((s.pushWord (zext10 (nextAddr s.pc))).setPc addr).memRead s.sp).toNat = (s.pc.toNat + 1) % 1024 := by
    rw [hcells' s.sp List.not_mem_nil, hcell, zext10_toNat, nextAddr_toNat]
  exact ⟨hreturn, (hsp'.trans hsp).trans (prevAddr_eq_sub_one s.sp), hpc, hcells.trans hcells', hregs.trans hregs',
    hflags.trans hflags', himage.trans himage', hports.trans hports'⟩

end Sys2Proof.Proofs
end

section
/-! The obligations of spec/30_encoding.md sections 2 to 6: decoding and encoding are inverse but for the ignored bits. What is shown
of each instruction is one property, `RoundTrips`; it is proved once for each of the seven formats, and the map of R61 is the table
of all 32 instructions by format. -/

open Sys2Proof Sys2Proof.Machine Sys2Proof.Layout Sys2Proof.Laws.OpcodeField

namespace Sys2Proof.Proofs

/-! ## A word with its ignored bits cleared (R53 to R59) -/

theorem append_and_allOnes_append_zero {m n : Nat} (x : BitVec m) (y : BitVec n) :
    (x ++ y) &&& (BitVec.allOnes m ++ 0#n) = x ++ 0#n := by
  rw [BitVec.and_append, BitVec.and_allOnes, BitVec.and_zero]

theorem formatN_fields (w : Word) : formatN (opField w) = w &&& 0xF800 := by
  calc formatN (opField w)
      = (opField w ++ w.extractLsb' 0 11) &&& (BitVec.allOnes 5 ++ 0#11) := (append_and_allOnes_append_zero _ _).symm
    _ = w &&& 0xF800 := by rw [← word_eq_bare w]; rfl

theorem formatR_fields (w : Word) : formatR (opField w) (regA w) = w &&& 0xFF00 := by
  calc formatR (opField w) (regA w)
      = opField w ++ w.extractLsb' 8 3 ++ 0#8 := by rw [formatR, regA, Reg.toBits_ofBits]
    _ = (opField w ++ w.extractLsb' 8 3 ++ w.extractLsb' 0 8) &&& (BitVec.allOnes 8 ++ 0#8) :=
        (append_and_allOnes_append_zero _ _).symm
    _ = w &&& 0xFF00 := by rw [← word_eq_reg w]; rfl

theorem formatRR_fields (w : Word) : formatRR (opField w) (regA w) (regB w) = w &&& 0xFFE0 := by
  calc formatRR (opField w) (regA w) (regB w)
      = opField w ++ w.extractLsb' 8 3 ++ w.extractLsb' 5 3 ++ 0#5 := by
        rw [formatRR, regA, regB, Reg.toBits_ofBits, Reg.toBits_ofBits]
    _ = (opField w ++ w.extractLsb' 8 3 ++ w.extractLsb' 5 3 ++ w.extractLsb' 0 5) &&& (BitVec.allOnes 11 ++ 0#5) :=
        (append_and_allOnes_append_zero _ _).symm
    _ = w &&& 0xFFE0 := by rw [← word_eq_reg_reg w]; rfl

theorem formatA_fields (w : Word) : formatA (opField w) (addrField w) = w &&& 0xFFFE := by
  calc formatA (opField w) (addrField w)
      = (opField w ++ w.extractLsb' 1 10 ++ w.extractLsb' 0 1) &&& (BitVec.allOnes 15 ++ 0#1) :=
        (append_and_allOnes_append_zero _ _).symm
    _ = w &&& 0xFFFE := by rw [← word_eq_address w]; rfl

/-- Formats RI, MS and MR have no ignored bit. -/
theorem word_and_ffff (w : Word) : w &&& 0xFFFF = w := BitVec.and_allOnes

theorem formatRI_fields (w : Word) : formatRI (opField w) (regA w) (imm8Field w) = w &&& 0xFFFF := by
  rw [formatRI, regA, Reg.toBits_ofBits, word_and_ffff]
  exact (word_eq_reg w).symm

theorem formatMS_fields (w : Word) : formatMS (opField w) (regA w) (off8Field w) = w &&& 0xFFFF := by
  rw [off8Field, formatMS_toInt]
  exact formatRI_fields w

theorem formatMR_fields (w : Word) : formatMR (opField w) (regA w) (regB w) (off5Field w) = w &&& 0xFFFF := by
  rw [formatMR, regA, regB, off5Field, Reg.toBits_ofBits, Reg.toBits_ofBits, BitVec.ofInt_toInt, word_and_ffff]
  exact (word_eq_reg_reg w).symm

/-! ## One format at a time -/

/-- What decoding and encoding do to an instruction, and to every word with the opcode of the instruction's own word. -/
structure RoundTrips (i : Instr) : Prop where
  decode_encode : i.wf = true → decode (encode i) = i
  encode_decode : ∀ w : Word, opField w = opField (encode i) → encode (decode w) = w &&& usedBits (opField w)
  decode_wf : ∀ w : Word, opField w = opField (encode i) → (decode w).wf = true

section
variable {op : Opcode}

theorem roundTrips_of_formatN {i : Instr} (hdecode : ∀ w : Word, opField w = op → decode w = i) (hencode : encode i = formatN op)
    (hused : usedBits op = 0xF800) (hwf : i.wf = true) : RoundTrips i := by
  have hop : opField (encode i) = op := hencode ▸ formatN_op op
  refine ⟨fun _ => hdecode _ hop, fun w hw => ?_, fun w hw => ?_⟩
  · obtain rfl := hw.trans hop
    rw [hdecode w rfl, hencode, hused, formatN_fields]
  · rw [hdecode w (hw.trans hop), hwf]

theorem roundTrips_of_formatR {mk : Reg → Instr} (hdecode : ∀ w : Word, opField w = op → decode w = mk (regA w))
    (hencode : ∀ a, encode (mk a) = formatR op a) (hused : usedBits op = 0xFF00) (hwf : ∀ a, (mk a).wf = true) (a : Reg) :
    RoundTrips (mk a) := by
  have hop : opField (encode (mk a)) = op := hencode a ▸ formatR_op op a
  refine ⟨fun _ => ?_, fun w hw => ?_, fun w hw => ?_⟩
  · exact hencode a ▸ (isR_of_opField hdecode hencode).1 a 0#8
  · obtain rfl := hw.trans hop
    rw [hdecode w rfl, hencode, hused, formatR_fields]
  · rw [hdecode w (hw.trans hop), hwf]

theorem roundTrips_of_formatRR {mk : Reg → Reg → Instr} (hdecode : ∀ w : Word, opField w = op → decode w = mk (regA w) (regB w))
    (hencode : ∀ a b, encode (mk a b) = formatRR op a b) (hused : usedBits op = 0xFFE0) (hwf : ∀ a b, (mk a b).wf = true)
    (a b : Reg) : RoundTrips (mk a b) := by
  have hop : opField (encode (mk a b)) = op := hencode a b ▸ formatRR_op op a b
  refine ⟨fun _ => ?_, fun w hw => ?_, fun w hw => ?_⟩
  · exact hencode a b ▸ (isRR_of_opField hdecode hencode).1 a b 0#5
  · obtain rfl := hw.trans hop
    rw [hdecode w rfl, hencode, hused, formatRR_fields]
  · rw [hdecode w (hw.trans hop), hwf]

theorem roundTrips_of_formatRI {mk : Reg → BitVec 8 → Instr}
    (hdecode : ∀ w : Word, opField w = op → decode w = mk (regA w) (imm8Field w))
    (hencode : ∀ a imm, encode (mk a imm) = formatRI op a imm) (hused : usedBits op = 0xFFFF)
    (hwf : ∀ a imm, (mk a imm).wf = true) (a : Reg) (imm : BitVec 8) : RoundTrips (mk a imm) := by
  have hop : opField (encode (mk a imm)) = op := hencode a imm ▸ formatRI_op op a imm
  refine ⟨fun _ => ?_, fun w hw => ?_, fun w hw => ?_⟩
  · exact hencode a imm ▸ (isRI_of_opField hdecode hencode).1 a imm
  · obtain rfl := hw.trans hop
    rw [hdecode w rfl, hencode, hused, formatRI_fields]
  · rw [hdecode w (hw.trans hop), hwf]

theorem roundTrips_of_formatA {mk : Addr → Instr} (hdecode : ∀ w : Word, opField w = op → decode w = mk (addrField w))
    (hencode : ∀ addr, encode (mk addr) = formatA op addr) (hused : usedBits op = 0xFFFE) (hwf : ∀ addr, (mk addr).wf = true)
    (addr : Addr) : RoundTrips (mk addr) := by
  have hop : opField (encode (mk addr)) = op := hencode addr ▸ formatA_op op addr
  refine ⟨fun _ => ?_, fun w hw => ?_, fun w hw => ?_⟩
  · exact hencode addr ▸ (isA_of_opField hdecode hencode).1 addr 0#1
  · obtain rfl := hw.trans hop
    rw [hdecode w rfl, hencode, hused, formatA_fields]
  · rw [hdecode w (hw.trans hop), hwf]

/-- The offset comes back because it fits its eight bits. -/
theorem roundTrips_of_formatMS {mk : Reg → Int → Instr} (hdecode : ∀ w : Word, opField w = op → decode w = mk (regA w) (off8Field w))
    (hencode : ∀ a off, encode (mk a off) = formatMS op a off) (hused : usedBits op = 0xFFFF)
    (hwf : ∀ a off, (mk a off).wf = fitsOff8 off) (a : Reg) (off : Int) : RoundTrips (mk a off) := by
  have hop : opField (encode (mk a off)) = op := hencode a off ▸ formatMS_op op a off
  refine ⟨fun hfits => ?_, fun w hw => ?_, fun w hw => ?_⟩
  · have hfield := (isMS_of_opField hdecode hencode).1 a (BitVec.ofInt 8 off)
    rw [toInt_ofInt_off8 off (hwf a off ▸ hfits)] at hfield
    exact hencode a off ▸ hfield
  · obtain rfl := hw.trans hop
    rw [hdecode w rfl, hencode, hused, formatMS_fields]
  · rw [hdecode w (hw.trans hop), hwf]
    exact fitsOff8_toInt _

/-- The offset comes back because it fits its five bits. -/
theorem roundTrips_of_formatMR {mk : Reg → Reg → Int → Instr}
    (hdecode : ∀ w : Word, opField w = op → decode w = mk (regA w) (regB w) (off5Field w))
    (hencode : ∀ a b off, encode (mk a b off) = formatMR op a b off) (hused : usedBits op = 0xFFFF)
    (hwf : ∀ a b off, (mk a b off).wf = fitsOff5 off) (a b : Reg) (off : Int) : RoundTrips (mk a b off) := by
  have hop : opField (encode (mk a b off)) = op := hencode a b off ▸ formatMR_op op a b off
  refine ⟨fun hfits => ?_, fun w hw => ?_, fun w hw => ?_⟩
  · have hfield := (isMR_of_opField hdecode hencode).1 a b (BitVec.ofInt 5 off)
    rw [toInt_ofInt_off5 off (hwf a b off ▸ hfits)] at hfield
    exact hencode a b off ▸ hfield
  · obtain rfl := hw.trans hop
    rw [hdecode w rfl, hencode, hused, formatMR_fields]
  · rw [hdecode w (hw.trans hop), hwf]
    exact fitsOff5_toInt _

end

/-! ## All instructions (R61) -/

/-- The opcode map, each instruction with its format and the decoder's arm for its opcode. -/
theorem roundTrips (i : Instr) : RoundTrips i := by
  cases i with
  | nop => exact roundTrips_of_formatN decode_eq_nop_of_opField rfl rfl rfl
  | mv a b => exact roundTrips_of_formatRR decode_eq_mv_of_opField (fun _ _ => rfl) rfl (fun _ _ => rfl) a b
  | mvh a imm => exact roundTrips_of_formatRI decode_eq_mvh_of_opField (fun _ _ => rfl) rfl (fun _ _ => rfl) a imm
  | mvl a imm => exact roundTrips_of_formatRI decode_eq_mvl_of_opField (fun _ _ => rfl) rfl (fun _ _ => rfl) a imm
  | ldSp a off => exact roundTrips_of_formatMS decode_eq_ldSp_of_opField (fun _ _ => rfl) rfl (fun _ _ => rfl) a off
  | stSp a off => exact roundTrips_of_formatMS decode_eq_stSp_of_opField (fun _ _ => rfl) rfl (fun _ _ => rfl) a off
  | inPort a => exact roundTrips_of_formatR decode_eq_inPort_of_opField (fun _ => rfl) rfl (fun _ => rfl) a
  | outPort a => exact roundTrips_of_formatR decode_eq_outPort_of_opField (fun _ => rfl) rfl (fun _ => rfl) a
  | cmp a b => exact roundTrips_of_formatRR decode_eq_cmp_of_opField (fun _ _ => rfl) rfl (fun _ _ => rfl) a b
  | jmp addr => exact roundTrips_of_formatA decode_eq_jmp_of_opField (fun _ => rfl) rfl (fun _ => rfl) addr
  | jc addr => exact roundTrips_of_formatA decode_eq_jc_of_opField (fun _ => rfl) rfl (fun _ => rfl) addr
  | jnc addr => exact roundTrips_of_formatA decode_eq_jnc_of_opField (fun _ => rfl) rfl (fun _ => rfl) addr
  | jz addr => exact roundTrips_of_formatA decode_eq_jz_of_opField (fun _ => rfl) rfl (fun _ => rfl) addr
  | jnz addr => exact roundTrips_of_formatA decode_eq_jnz_of_opField (fun _ => rfl) rfl (fun _ => rfl) addr
  | call addr => exact roundTrips_of_formatA decode_eq_call_of_opField (fun _ => rfl) rfl (fun _ => rfl) addr
  | ret => exact roundTrips_of_formatN decode_eq_ret_of_opField rfl rfl rfl
  | push a => exact roundTrips_of_formatR decode_eq_push_of_opField (fun _ => rfl) rfl (fun _ => rfl) a
  | pop a => exact roundTrips_of_formatR decode_eq_pop_of_opField (fun _ => rfl) rfl (fun _ => rfl) a
  | add a b => exact roundTrips_of_formatRR decode_eq_add_of_opField (fun _ _ => rfl) rfl (fun _ _ => rfl) a b
  | sub a b => exact roundTrips_of_formatRR decode_eq_sub_of_opField (fun _ _ => rfl) rfl (fun _ _ => rfl) a b
  | and a b => exact roundTrips_of_formatRR decode_eq_and_of_opField (fun _ _ => rfl) rfl (fun _ _ => rfl) a b
  | or a b => exact roundTrips_of_formatRR decode_eq_or_of_opField (fun _ _ => rfl) rfl (fun _ _ => rfl) a b
  | not a => exact roundTrips_of_formatR decode_eq_not_of_opField (fun _ => rfl) rfl (fun _ => rfl) a
  | xor a b => exact roundTrips_of_formatRR decode_eq_xor_of_opField (fun _ _ => rfl) rfl (fun _ _ => rfl) a b
  | shr a b => exact roundTrips_of_formatRR decode_eq_shr_of_opField (fun _ _ => rfl) rfl (fun _ _ => rfl) a b
  | shl a b => exact roundTrips_of_formatRR decode_eq_shl_of_opField (fun _ _ => rfl) rfl (fun _ _ => rfl) a b
  | clr a => exact roundTrips_of_formatR decode_eq_clr_of_opField (fun _ => rfl) rfl (fun _ => rfl) a
  | lspImm addr => exact roundTrips_of_formatA decode_eq_lspImm_of_opField (fun _ => rfl) rfl (fun _ => rfl) addr
  | lspReg a => exact roundTrips_of_formatR decode_eq_lspReg_of_opField (fun _ => rfl) rfl (fun _ => rfl) a
  | rsp a => exact roundTrips_of_formatR decode_eq_rsp_of_opField (fun _ => rfl) rfl (fun _ => rfl) a
  | ldReg a b off => exact roundTrips_of_formatMR decode_eq_ldReg_of_opField (fun _ _ _ => rfl) rfl (fun _ _ _ => rfl) a b off
  | stReg a b off => exact roundTrips_of_formatMR decode_eq_stReg_of_opField (fun _ _ _ => rfl) rfl (fun _ _ _ => rfl) a b off

/-- Settles O1: the table of all instructions, read from the instruction to its word and back. -/
theorem encodedInstructionDecodesBack : Obligations.EncodedInstructionDecodesBack := by
  unfold Obligations.EncodedInstructionDecodesBack
  exact fun i => (roundTrips i).decode_encode

/-- All 32 opcodes are assigned (R61). -/
theorem exists_instr_of_opcode : ∀ op : Opcode, ∃ i : Instr, opField (encode i) = op := by
  have hassigned : ∀ op : Opcode, opField (encode (decode (op ++ 0#11))) = op := by decide
  exact fun op => ⟨_, hassigned op⟩

/-- Settles O2: every word has the opcode of some instruction, whose row of the table says what the word re-encodes to. -/
theorem decodedWordReencodesWithoutIgnoredBits : Obligations.DecodedWordReencodesWithoutIgnoredBits := by
  unfold Obligations.DecodedWordReencodesWithoutIgnoredBits
  intro w
  obtain ⟨i, hi⟩ := exists_instr_of_opcode (opField w)
  exact (roundTrips i).encode_decode w hi.symm

/-- Settles O3, by the row of the table for the word's opcode. -/
theorem everyWordDecodesToWellFormed : Obligations.EveryWordDecodesToWellFormed := by
  unfold Obligations.EveryWordDecodesToWellFormed
  intro w
  obtain ⟨i, hi⟩ := exists_instr_of_opcode (opField w)
  exact (roundTrips i).decode_wf w hi.symm

/-- Settles O4, by decoding the eight words. -/
theorem sampleWordsDecode : Obligations.SampleWordsDecode := by
  unfold Obligations.SampleWordsDecode
  decide

end Sys2Proof.Proofs
end

section
/-! The obligations of spec/70_reset_and_hazards.md and of the step (spec/20_memory.md R33, spec/60_exceptions.md R150): the state
after reset, what a step can do, and the canonical form of both memories. -/

open Sys2Proof Sys2Proof.Machine

/-! ## Reset (R165) -/

theorem Sys2Proof.Machine.Regs.get_zero (r : Reg) : Regs.zero.get r = 0 := by
  cases r <;> rfl

namespace Sys2Proof.Proofs

/-- Settles O6: every clause reads a field of `State.reset` or the image that `State.load` puts in it. -/
theorem resetStateHoldsGivenValues : Obligations.ResetStateHoldsGivenValues := by
  unfold Obligations.ResetStateHoldsGivenValues
  exact fun _ => ⟨rfl, rfl, Regs.get_zero, rfl, rfl, fun _ => rfl, fun _ => rfl, rfl, rfl⟩

/-- Settles O7: the data space after reset lists no cell, and the instruction space is the image. -/
theorem resetMemoriesAreCanonical : Obligations.ResetMemoriesAreCanonical := by
  unfold Obligations.ResetMemoriesAreCanonical
  refine ⟨rfl, fun image himage => ?_⟩
  have hd : (State.load image).dmem.wf = true := Memory.wf_nil
  rw [State.wf, hd, Bool.true_and]
  exact himage

/-! ## What a step does (R33, R172) -/

theorem step_of_fetchAt_some {s : State} {w : Word} (h : s.fetchAt s.pc = some w) : step s = exec (decode w) s := by
  simp only [step, State.fetch, h]

theorem step_of_fetchAt_none {s : State} (h : s.fetchAt s.pc = none) : step s = .refused (.fetchOutsideImage s.pc) := by
  simp only [step, State.fetch, h]

/-- Every instruction completes: each arm of `exec` answers a next state (D17, log 18). -/
theorem exec_completes (i : Instr) (s : State) : ∃ t, exec i s = .next t := by
  cases i with
  | _ => exact ⟨_, rfl⟩

/-- A step that answers a next state executed the instruction it fetched. -/
theorem exec_of_step_next {s t : State} (h : step s = .next t) :
    ∃ w, s.fetchAt s.pc = some w ∧ exec (decode w) s = .next t := by
  cases hw : s.fetchAt s.pc with
  | none => rw [step_of_fetchAt_none hw] at h; cases h
  | some w => exact ⟨w, rfl, step_of_fetchAt_some hw ▸ h⟩

/-- Settles O8. -/
theorem stepRunsTheDecodedInstruction : Obligations.StepRunsTheDecodedInstruction := by
  unfold Obligations.StepRunsTheDecodedInstruction
  exact fun _ _ h => step_of_fetchAt_some h

/-- Settles O10: the step is the fetched instruction, and that completes. -/
theorem everyDefinedFetchCompletes : Obligations.EveryDefinedFetchCompletes := by
  unfold Obligations.EveryDefinedFetchCompletes
  intro s hfetch
  obtain ⟨w, hw⟩ := Option.isSome_iff_exists.mp hfetch
  rw [step_of_fetchAt_some hw]
  exact exec_completes (decode w) s

/-- Settles O9: a step that fetches a word completes, so a refused one fetched none. -/
theorem onlyAFetchOutsideTheImageIsRefused : Obligations.OnlyAFetchOutsideTheImageIsRefused := by
  unfold Obligations.OnlyAFetchOutsideTheImageIsRefused
  refine ⟨fun s => step_of_fetchAt_none, fun s r h => ?_⟩
  cases hw : s.fetchAt s.pc with
  | none =>
    rw [step_of_fetchAt_none hw] at h
    cases h
    exact ⟨rfl, rfl⟩
  | some w =>
    obtain ⟨t, ht⟩ := exec_completes (decode w) s
    rw [step_of_fetchAt_some hw, ht] at h
    cases h

/-! ## The end of a run (R169) -/

/-- What the end of a run says of the cell at pc. -/
theorem fetchAt_of_atEnd {s : State} (h : s.atEnd = true) : ∃ w, s.fetchAt s.pc = some w ∧ decode w = .jmp s.pc := by
  unfold State.atEnd at h
  split at h
  next w hw => exact ⟨w, hw, of_decide_eq_true h⟩
  next => cases h

/-- Settles O20: the step is the `jmp`, which sets pc to what it is. -/
theorem endOfRunChangesNothing : Obligations.EndOfRunChangesNothing := by
  unfold Obligations.EndOfRunChangesNothing
  intro s h
  obtain ⟨w, hw, hjmp⟩ := fetchAt_of_atEnd h
  calc step s = exec (.jmp s.pc) s := by rw [step_of_fetchAt_some hw, hjmp]
    _ = .next (s.setPc s.pc) := exec_jmp s.pc s
    _ = .next s := rfl

/-! ## The canonical form (spec/20_memory.md R31, R34) -/

/-- An instruction that writes a cell leaves both memories as one store to that cell does. -/
theorem exec_memories_of_cellWritten_some {i : Instr} {s t : State} {a : Addr} (h : exec i s = .next t)
    (hw : s.cellWritten i = some a) : ∃ v, t.dmem = (s.memWrite a v).dmem ∧ t.imem = (s.memWrite a v).imem := by
  cases i with
  | stReg r b off => cases hw; cases h; exact ⟨s.reg r, rfl, rfl⟩
  | stSp r off => cases hw; cases h; exact ⟨s.reg r, rfl, rfl⟩
  | push r => cases hw; cases h; exact ⟨s.reg r, rfl, rfl⟩
  | call addr => cases hw; cases h; exact ⟨zext10 (nextAddr s.pc), rfl, rfl⟩
  | _ => cases hw

/-- Every instruction keeps both memories in canonical form: it leaves them alone or stores to one cell. -/
theorem exec_wf {i : Instr} {s t : State} (hs : s.wf = true) (h : exec i s = .next t) : t.wf = true := by
  cases hw : s.cellWritten i with
  | none =>
    obtain ⟨hd, hi⟩ := exec_memories_of_cellWritten_none h hw
    exact (State.wf_of_same_memories s t hd hi).trans hs
  | some a =>
    obtain ⟨v, hd, hi⟩ := exec_memories_of_cellWritten_some h hw
    exact (State.wf_of_same_memories (s.memWrite a v) t hd hi).trans (s.wf_memWrite a v hs)

/-- Settles O11: a step that answers a next state executed an instruction, and every instruction keeps the canonical form. -/
theorem everyStepKeepsMemoriesCanonical : Obligations.EveryStepKeepsMemoriesCanonical := by
  unfold Obligations.EveryStepKeepsMemoriesCanonical
  intro s t hs h
  obtain ⟨w, -, hexec⟩ := exec_of_step_next h
  exact exec_wf hs hexec

end Sys2Proof.Proofs
end

section
/-! The obligations of spec/10_state.md that hold of every instruction: flags, pc, sp, registers and ports after it, and what it
does not read. Each is a case split on the instruction; the arms of one kind are settled by the rule of the shared operation they end
in. -/

open Sys2Proof Sys2Proof.Machine

namespace Sys2Proof.Machine

/-- The flags that `finishAlu` leaves, z told from the register it wrote. -/
theorem State.finishAlu_flags (s : State) (a : Reg) (v : Word) (c : Bool) :
    ((s.finishAlu a v c).z = true ↔ (s.finishAlu a v c).reg a = 0) ∧ (s.finishAlu a v c).c = c := by
  obtain ⟨hreg, hc, hz, -⟩ := s.finishAlu_spec a v c
  exact ⟨hreg.symm ▸ hz, hc⟩

/-- A branch whose condition holds goes to its address, one whose condition fails goes on. -/
theorem State.branch_pc (s : State) (cond : Bool) (addr : Addr) :
    (cond = true → (s.branch cond addr).pc = addr) ∧ (cond = false → s.atNext (s.branch cond addr)) := by
  have hpc := s.branch_pc_of_iff (Iff.refl (cond = true)) addr
  constructor <;> rintro rfl
  · exact hpc
  · exact hpc

/-- A register file in which only register A was written agrees outside it. -/
theorem State.sameRegs_of_regs_eq_set {s t : State} {a : Reg} {v : Word} (h : t.regs = s.regs.set a v) : s.sameRegs t [a] := by
  intro q hq
  have hne : q ≠ a := by simpa using hq
  rw [State.reg, h, Regs.get_set_of_ne _ _ _ _ hne, State.reg]

end Sys2Proof.Machine

namespace Sys2Proof.Proofs

/-- Settles O13: the flag writers end in `finishAlu` or, as `cmp`, in `setFlags`; no other meaning writes a flag. -/
theorem flagsAfterEveryInstruction : Obligations.FlagsAfterEveryInstruction := by
  unfold Obligations.FlagsAfterEveryInstruction
  intro i s t h
  cases i with
  | add a b =>
    cases h
    obtain ⟨hz, hc⟩ := s.finishAlu_flags a (addWords (s.reg a) (s.reg b)) (carryOfAdd (s.reg a) (s.reg b))
    exact ⟨hz, hc ▸ carryOfAdd_eq_true (s.reg a) (s.reg b)⟩
  | sub a b =>
    cases h
    obtain ⟨hz, hc⟩ := s.finishAlu_flags a (subWords (s.reg a) (s.reg b)) (borrowOfSub (s.reg a) (s.reg b))
    exact ⟨hz, hc ▸ borrowOfSub_eq_true (s.reg a) (s.reg b)⟩
  | cmp a b =>
    cases h
    exact ⟨equalWords_eq_true (s.reg a) (s.reg b), signedLess_eq_true (s.reg a) (s.reg b)⟩
  | and a b | or a b | xor a b | shr a b | shl a b | not a =>
    cases h
    exact s.finishAlu_flags a _ false
  | _ => cases h; exact ⟨rfl, rfl⟩

/-- Settles O14: no read that a meaning makes, but the condition of a branch, is of a flag, so with other flags each meaning is the
same updates; the flag writers then overwrite those flags, the others keep them. -/
theorem onlyConditionalJumpsReadFlags : Obligations.OnlyConditionalJumpsReadFlags := by
  unfold Obligations.OnlyConditionalJumpsReadFlags
  intro i s t c z h
  cases i with
  | jc addr =>
    cases h
    exact ⟨rfl, s.branch_pc s.c addr⟩
  | jnc addr =>
    cases h
    obtain ⟨htaken, hnot⟩ := s.branch_pc (!s.c) addr
    exact ⟨rfl, fun hc => htaken (by rw [hc]; rfl), fun hc => hnot (by rw [hc]; rfl)⟩
  | jz addr =>
    cases h
    exact ⟨rfl, s.branch_pc s.z addr⟩
  | jnz addr =>
    cases h
    obtain ⟨htaken, hnot⟩ := s.branch_pc (!s.z) addr
    exact ⟨rfl, fun hz => htaken (by rw [hz]; rfl), fun hz => hnot (by rw [hz]; rfl)⟩
  | add | sub | cmp | and | or | xor | not | shr | shl => exact h
  | _ => cases h; rfl

/-- Settles O15: jumps set pc, `branch` goes where its condition says, and every other meaning ends in `advance`. -/
theorem programCounterAfterEveryInstruction : Obligations.ProgramCounterAfterEveryInstruction := by
  unfold Obligations.ProgramCounterAfterEveryInstruction
  intro i s t h
  cases i with
  | jmp | call => cases h; rfl
  | ret => cases h; exact low10_toNat s.topWord
  | jc addr => cases h; exact s.branch_pc_of_iff Iff.rfl addr
  | jnc addr => cases h; exact s.branch_pc_of_iff (Iff.of_eq (Bool.not_eq_true' s.c)) addr
  | jz addr => cases h; exact s.branch_pc_of_iff Iff.rfl addr
  | jnz addr => cases h; exact s.branch_pc_of_iff (Iff.of_eq (Bool.not_eq_true' s.z)) addr
  | _ => cases h; exact nextAddr_toNat s.pc

/-- Settles O16: the stack operations move sp by one, both forms of lsp load it, and no other meaning writes it. -/
theorem stackPointerAfterEveryInstruction : Obligations.StackPointerAfterEveryInstruction := by
  unfold Obligations.StackPointerAfterEveryInstruction
  intro i s t h
  cases i with
  | push | call => cases h; exact prevAddr_eq_sub_one s.sp
  | pop | ret => cases h; exact nextAddr_eq_add_one s.sp
  | lspReg a => cases h; exact low10_toNat (s.reg a)
  | _ => cases h; rfl

/-- Settles O17: a meaning that writes a register sets register A in the register file and no other; the byte that mvh and mvl keep
is read off the value they set. -/
theorem onlyRegisterAIsWritten : Obligations.OnlyRegisterAIsWritten := by
  unfold Obligations.OnlyRegisterAIsWritten
  intro i s t h
  cases i with
  | mv | clr | pop | inPort | rsp | ldReg | ldSp | add | sub | and | or | xor | not | shr | shl =>
    cases h
    exact State.sameRegs_of_regs_eq_set rfl
  | mvh a imm =>
    cases h
    obtain ⟨hreg, -, hregs, -⟩ := s.finishMove_spec a (withHighByte (s.reg a) imm)
    refine ⟨hregs, ?_⟩
    rw [hreg, withHighByte_toNat]
    omega
  | mvl a imm =>
    cases h
    obtain ⟨hreg, -, hregs, -⟩ := s.finishMove_spec a (withLowByte (s.reg a) imm)
    refine ⟨hregs, ?_⟩
    have := imm.isLt
    rw [hreg, withLowByte_toNat]
    omega
  | _ => cases h; exact fun _ _ => rfl

/-- Settles O18: `out` ends in `portOut`, `in` in `tookInput`, and no other meaning touches a port. -/
theorem portsAfterEveryInstruction : Obligations.PortsAfterEveryInstruction := by
  unfold Obligations.PortsAfterEveryInstruction
  intro i s t h
  cases i with
  | outPort a => cases h; exact ⟨s.portOut_output (s.reg a), rfl, rfl⟩
  | inPort a => cases h; exact ⟨rfl, s.tookInput_inputScript, s.tookInput_inputCount⟩
  | _ => cases h; exact ⟨rfl, rfl, rfl⟩

/-- Settles O19: no read that a meaning makes is of the instruction space, and no update is, so with another image each meaning is
the same updates of the other fields. -/
theorem noInstructionReadsTheImage : Obligations.NoInstructionReadsTheImage := by
  unfold Obligations.NoInstructionReadsTheImage
  intro i s t image h
  cases i with
  | _ => cases h; rfl

end Sys2Proof.Proofs
end

section
/-! The obligations about instructions in sequence: call and ret, push and pop, rsp and lsp, and the two instructions of `.ldtag`
(spec/46_assembler.md R145). Each is put together from what the instructions' own obligations say. -/

open Sys2Proof Sys2Proof.Machine

namespace Sys2Proof.Machine

/-- A frame that leaves out more says less. -/
theorem State.sameRegs.mono {s t : State} {l m : List Reg} (h : s.sameRegs t l) (hlm : l ⊆ m) : s.sameRegs t m :=
  fun r hr => h r fun hl => hr (hlm hl)

/-- The increment as a sum of addresses. -/
theorem State.atNext_iff (s t : State) : s.atNext t ↔ t.pc = s.pc + 1 := by
  rw [State.atNext, ← nextAddr_toNat, BitVec.toNat_inj, nextAddr_eq_add_one]

end Sys2Proof.Machine

namespace Sys2Proof.Proofs

/-! ## call and ret (R71, R120) -/

theorem exec_call_eq {addr : Addr} {s t : State} (h : exec (.call addr) s = .next t) :
    t.memRead s.sp = zext10 (nextAddr s.pc) ∧ t.sp = prevAddr s.sp := by
  rw [exec_call] at h
  cases h
  obtain ⟨hcell, hsp, -⟩ := s.pushWord_spec (zext10 (nextAddr s.pc))
  exact ⟨hcell, hsp⟩

theorem exec_ret_eq {s t : State} (h : exec .ret s = .next t) :
    t.pc = low10 (s.memRead (nextAddr s.sp)) ∧ t.sp = nextAddr s.sp := by
  rw [exec_ret] at h
  cases h
  exact ⟨rfl, rfl⟩

/-- Settles O54: ret looks at the cell above sp, which is the cell call wrote, and narrowing undoes the zero extension. -/
theorem retAfterCallResumes : Obligations.RetAfterCallResumes := by
  unfold Obligations.RetAfterCallResumes
  intro addr s t u v hcall husp hucell hret
  obtain ⟨hcell, hsp⟩ := exec_call_eq hcall
  obtain ⟨hvpc, hvsp⟩ := exec_ret_eq hret
  have htop : nextAddr u.sp = s.sp := by rw [husp, hsp, nextAddr_prevAddr]
  refine ⟨?_, hvsp.trans htop⟩
  rw [hvpc, htop, hucell, hcell, low10_zext10, nextAddr_eq_add_one]

/-! ## push and pop (R75, R76) -/

/-- Settles O55: pop reads the cell above the decremented sp, which is the cell push wrote; the frames of the two compose. -/
theorem popAfterPushCopies : Obligations.PopAfterPushCopies := by
  unfold Obligations.PopAfterPushCopies
  intro a b s t u hpush hpop
  obtain ⟨t', ht, hcell, hsp, -, hcells, hregs, hflags, -⟩ := pushStoresAtSpThenDecrements.2 a s
  cases hpush.symm.trans ht
  obtain ⟨u', hu, hreg, hsp', -, hregs', hflags', hcells', -⟩ := popLoadsTopThenIncrements.2 b t
  cases hpop.symm.trans hu
  have htop : t.sp + 1 = s.sp := by rw [hsp, BitVec.sub_add_cancel]
  exact ⟨by rw [hreg, htop, hcell], hsp'.trans htop, hregs.trans hregs', hflags.trans hflags', hcells.trans hcells'⟩

/-! ## rsp and lsp (R80, R81) -/

/-- Settles O56: lsp keeps the low 10 bits of the register, which rsp filled with sp. -/
theorem lspAfterRspKeepsSp : Obligations.LspAfterRspKeepsSp := by
  unfold Obligations.LspAfterRspKeepsSp
  intro a s t u hrsp hlsp
  obtain ⟨t', ht, hreg, -⟩ := rspZeroExtendsSp.2 a s
  cases hrsp.symm.trans ht
  obtain ⟨u', hu, hsp, -⟩ := lspRegisterTakesLowTenBits.2 a t
  cases hlsp.symm.trans hu
  apply BitVec.eq_of_toNat_eq
  rw [hsp, hreg, Nat.mod_eq_of_lt s.sp.isLt]

/-! ## mvh and mvl of a tag's address (R145) -/

/-- An address is its two bits 9:8 above its byte 7:0. -/
theorem addr_bytes_toNat (addr : Addr) :
    ((addr.extractLsb' 8 2).setWidth 8).toNat * 256 + (addr.extractLsb' 0 8).toNat = addr.toNat := by
  have := addr.isLt
  simp only [BitVec.toNat_setWidth, BitVec.extractLsb'_toNat, Nat.shiftRight_eq_div_pow]
  omega

/-- Settles O57: mvh sets the high byte, mvl then the low byte and keeps the high one; the frames of the two compose. -/
theorem ldtagLoadsTheTagsAddress : Obligations.LdtagLoadsTheTagsAddress := by
  unfold Obligations.LdtagLoadsTheTagsAddress
  intro a addr s
  obtain ⟨t, ht, hreg, hnext, hregs, hflags, hsp, hcells, himage, hports⟩ :=
    mvhReplacesHighByte.2 a ((addr.extractLsb' 8 2).setWidth 8) s
  obtain ⟨u, hu, hreg', hnext', hregs', hflags', hsp', hcells', himage', hports'⟩ :=
    mvlReplacesLowByte.2 a (addr.extractLsb' 0 8) t
  refine ⟨_, _, t, u, rfl, ht, hu, ?_, ?_, (hregs.trans hregs').mono (by simp), hflags.trans hflags', hsp'.trans hsp,
    hcells.trans hcells', himage.trans himage', hports.trans hports'⟩
  · have hhigh : (t.reg a).toNat / 256 = ((addr.extractLsb' 8 2).setWidth 8).toNat := by omega
    rw [hreg', hhigh, addr_bytes_toNat]
  · rw [(t.atNext_iff u).mp hnext', (s.atNext_iff t).mp hnext, BitVec.add_assoc]
    rfl

end Sys2Proof.Proofs
end

section
/-! The obligations of spec/46_assembler.md sections 1 and 2: which numbers fit their field, the canonical form of an image, and where
a program without tags or directives is placed. -/

open Sys2Proof Sys2Proof.Machine

namespace Sys2Proof.Machine

/-! ## Placing (R142, R143) -/

/-- Placing the words of a located program keeps the canonical form: each statement's words are placed by `placeWords`. -/
theorem placeAll_wf (packing : Option Config.StringPacking) (tab : TagTable) (ls : List (Addr × Line)) (m image : Memory)
    (hm : m.wf = true) (h : placeAll packing tab m ls = .ok image) : image.wf = true := by
  induction ls generalizing m with
  | nil => cases h; exact hm
  | cons e ls ih =>
    obtain ⟨lc, l⟩ := e
    unfold placeAll at h
    split at h
    next => cases h
    next ws _ =>
      split at h
      next => cases h
      next m' hplaced =>
        obtain ⟨-, -, hwf⟩ := placeWords_spec m lc ws m' hplaced
        exact ih m' (hwf hm) h

/-- Words are placed where every cell they need is free and there are no more of them than cells, so that the location counter does
not come round to a cell they took. -/
theorem placeWords_of_free (m : Memory) (lc : Addr) (ws : List Word) (hlen : ws.length ≤ 1024)
    (hfree : ∀ k < ws.length, m.read? (advance lc k).toNat = none) : ∃ image, placeWords m lc ws = .ok image := by
  induction ws generalizing m lc with
  | nil => exact ⟨m, rfl⟩
  | cons w ws ih =>
    have hlt := lc.isLt
    rw [List.length_cons] at hlen hfree
    have hhere : m.read? lc.toNat = none := by
      have h0 := hfree 0 (Nat.succ_pos _)
      rwa [advance_toNat, Nat.add_zero, Nat.mod_eq_of_lt hlt] at h0
    simp only [placeWords, hhere]
    refine ih _ _ (by omega) fun k hk => ?_
    have hne : (advance lc (1 + k)).toNat ≠ lc.toNat := by
      rw [advance_toNat]
      omega
    rw [advance_advance, Memory.read?_write_of_ne _ _ _ _ hne, Nat.add_comm]
    exact hfree (k + 1) (by omega)

/-! ## A program without tags or directives -/

/-- The line that is an instruction and nothing else. -/
def instrLine (i : Instr) : Line := ⟨none, .instr (.operands i)⟩

/-- Such lines, each with its location from `lc` on. -/
def instrLinesFrom : Addr → List Instr → List (Addr × Line)
  | _, [] => []
  | lc, i :: is => (lc, instrLine i) :: instrLinesFrom (advance lc 1) is

theorem locate_instrLines (packing : Option Config.StringPacking) (lc : Addr) (is : List Instr) :
    locate packing lc (is.map instrLine) = .ok (instrLinesFrom lc is) := by
  induction is generalizing lc with
  | nil => rfl
  | cons i is ih => simp only [List.map_cons, locate, instrLine, Stmt.after, instrLinesFrom, ih]

theorem collectTags_instrLinesFrom (tab : TagTable) (lc : Addr) (is : List Instr) :
    collectTags tab (instrLinesFrom lc is) = .ok tab := by
  induction is generalizing lc with
  | nil => rfl
  | cons i is ih => exact ih (advance lc 1)

theorem instrLinesFrom_gap (lc : Addr) (is : List Instr) : ∀ e ∈ instrLinesFrom lc is, e.2.stmt.gap = 0 := by
  induction is generalizing lc with
  | nil => exact fun e he => nomatch he
  | cons i is ih =>
    intro e he
    rcases List.mem_cons.mp he with rfl | he
    · rfl
    · exact ih _ e he

theorem resolve_operands_of_wf (tab : TagTable) {i : Instr} (h : i.wf = true) :
    (SrcInstr.operands i).resolve tab = .ok i := by
  rw [SrcInstr.resolve.eq_def]
  exact if_pos h

/-- Placing such lines one by one is placing their words in a row. -/
theorem placeAll_instrLinesFrom (packing : Option Config.StringPacking) (tab : TagTable) (m : Memory) (lc : Addr)
    (is : List Instr) (hwf : ∀ i ∈ is, i.wf = true) :
    placeAll packing tab m (instrLinesFrom lc is) = placeWords m lc (is.map encode) := by
  induction is generalizing m lc with
  | nil => rfl
  | cons i is ih =>
    obtain ⟨hi, his⟩ := List.forall_mem_cons.mp hwf
    simp only [instrLinesFrom, instrLine, placeAll, Stmt.words, resolve_operands_of_wf tab hi, List.map_cons, placeWords]
    cases m.read? lc.toNat with
    | some => rfl
    | none => exact ih _ _ his

/-- Assembling such a program is placing its words from 0x000 on. -/
theorem assemble_instrLines (packing : Option Config.StringPacking) (is : List Instr) (image : Memory)
    (hwf : ∀ i ∈ is, i.wf = true) (h : placeWords [] 0x000 (is.map encode) = .ok image) :
    assemble packing (is.map instrLine) = .ok image := by
  rw [assemble, locate_instrLines]
  simp only [collectTags_instrLinesFrom, placeAll_instrLinesFrom _ _ _ _ _ hwf, h]
  exact checkGaps_of_no_gap image _ (instrLinesFrom_gap _ _)

/-- The location `k` advances after 0x000. -/
theorem advance_zero_toNat {k : Nat} (h : k < 1024) : (advance 0x000 k).toNat = k := by
  have hzero : (0x000 : Addr).toNat = 0 := rfl
  rw [advance_toNat, hzero, Nat.zero_add, Nat.mod_eq_of_lt h]

/-- An image of words placed from 0x000 on lists them in order and nothing else. -/
theorem read?_of_placeWords_zero {ws : List Word} {image : Memory} (hlen : ws.length ≤ 1024)
    (h : placeWords [] 0x000 ws = .ok image) (k : Nat) : image.read? k = ws[k]? := by
  obtain ⟨hplaced, hrest, -⟩ := placeWords_spec [] 0x000 ws image h
  by_cases hk : k < ws.length
  · obtain ⟨-, hread⟩ := hplaced k ws[k] (List.getElem?_eq_getElem hk)
    rw [advance_zero_toNat (by omega)] at hread
    rw [hread, List.getElem?_eq_getElem hk]
  · rw [List.getElem?_eq_none (Nat.le_of_not_lt hk), hrest k fun j hj => ?_]
    · rfl
    · rw [advance_zero_toNat (by omega)]
      omega

/-! ## Numbers and their fields (R138, D22) -/

/-- A number below 2^n is the value of the n bits that hold it. -/
theorem toNat_ofInt_of_lt {w : Nat} {n : Int} (h0 : 0 ≤ n) (hn : n < 2 ^ w) : ((BitVec.ofInt w n).toNat : Int) = n := by
  rw [BitVec.toNat_ofInt, Nat.cast_pow, Nat.cast_ofNat, Int.emod_eq_of_lt h0 hn, Int.toNat_of_nonneg h0]

theorem resolve_mvh (tab : TagTable) (a : Reg) (n : Int) : (SrcInstr.mvh a n).resolve tab =
    if fitsImm8 n then .ok (.mvh a (BitVec.ofInt 8 n)) else .error (.numberOutOfRange n) := rfl

theorem resolve_mvl (tab : TagTable) (a : Reg) (n : Int) : (SrcInstr.mvl a n).resolve tab =
    if fitsImm8 n then .ok (.mvl a (BitVec.ofInt 8 n)) else .error (.numberOutOfRange n) := rfl

theorem resolve_ldReg (tab : TagTable) (a b : Reg) (n : Int) : (SrcInstr.operands (.ldReg a b n)).resolve tab =
    if fitsOff5 n then .ok (.ldReg a b n) else .error (.numberOutOfRange n) := rfl

theorem resolve_stReg (tab : TagTable) (a b : Reg) (n : Int) : (SrcInstr.operands (.stReg a b n)).resolve tab =
    if fitsOff5 n then .ok (.stReg a b n) else .error (.numberOutOfRange n) := rfl

theorem resolve_ldSp (tab : TagTable) (a : Reg) (n : Int) : (SrcInstr.operands (.ldSp a n)).resolve tab =
    if fitsOff8 n then .ok (.ldSp a n) else .error (.numberOutOfRange n) := rfl

theorem resolve_stSp (tab : TagTable) (a : Reg) (n : Int) : (SrcInstr.operands (.stSp a n)).resolve tab =
    if fitsOff8 n then .ok (.stSp a n) else .error (.numberOutOfRange n) := rfl

/-- A written address is resolved to the instruction of its mnemonic, or refused as a number. -/
theorem resolve_address_num (tab : TagTable) (op : AddrOp) (n : Int) : (SrcInstr.address op (.num n)).resolve tab =
    if fitsAddr n then .ok (op.instr (BitVec.ofInt 10 n)) else .error (.numberOutOfRange n) := by
  cases h : fitsAddr n <;> simp [SrcInstr.resolve, Target.resolve, addrOfNumber, h]

end Sys2Proof.Machine

namespace Sys2Proof.Proofs

/-- Settles O58: what assembling places, it places into the empty image, which is canonical. -/
theorem assembledImagesAreCanonical : Obligations.AssembledImagesAreCanonical := by
  unfold Obligations.AssembledImagesAreCanonical
  intro packing prog image h
  obtain ⟨located, tab, -, -, hplaced, -⟩ := assemble_spec packing prog image h
  exact placeAll_wf packing tab located [] image Memory.wf_nil hplaced

/-- Settles O59: the program is assembled by placing its words from 0x000 on, where all cells are free. -/
theorem straightLineProgramIsPlacedInOrder : Obligations.StraightLineProgramIsPlacedInOrder := by
  unfold Obligations.StraightLineProgramIsPlacedInOrder
  intro is hwf hlen
  have hwords : (is.map encode).length ≤ 1024 := by rwa [List.length_map]
  obtain ⟨image, himage⟩ := placeWords_of_free [] 0x000 (is.map encode) hwords fun _ _ => rfl
  refine ⟨image, assemble_instrLines none is image hwf himage, fun k => ?_⟩
  rw [read?_of_placeWords_zero hwords himage, List.getElem?_map]

/-- Settles O60: each form of source instruction is checked against its own field; a fitting number is the value of its bits. -/
theorem literalsOutsideTheirFieldAreRefused : Obligations.LiteralsOutsideTheirFieldAreRefused := by
  unfold Obligations.LiteralsOutsideTheirFieldAreRefused
  intro tab a b n
  refine ⟨?_, ?_, ?_, fun op => ?_⟩
  · simp only [resolve_mvh, resolve_mvl, fitsImm8, decide_eq_true_eq]
    split
    next h => exact ⟨BitVec.ofInt 8 n, toNat_ofInt_of_lt h.1 (by omega), rfl, rfl⟩
    next => exact ⟨rfl, rfl⟩
  · simp only [resolve_ldReg, resolve_stReg, fitsOff5, decide_eq_true_eq]
    split
    next => exact ⟨rfl, rfl⟩
    next => exact ⟨rfl, rfl⟩
  · simp only [resolve_ldSp, resolve_stSp, fitsOff8, decide_eq_true_eq]
    split
    next => exact ⟨rfl, rfl⟩
    next => exact ⟨rfl, rfl⟩
  · simp only [resolve_address_num, fitsAddr, decide_eq_true_eq]
    split
    next h => exact ⟨BitVec.ofInt 10 n, toNat_ofInt_of_lt h.1 (by omega), rfl⟩
    next => rfl

end Sys2Proof.Proofs
end
